-- ==== Sys2Proof/Word.lean ====
section
/-! DEFINITION. The widths of 00_scope.md R4, 10_state.md R10 to R21 and 30_encoding.md R60: the words the block moves. -/

namespace Sys2Proof

/-- A byte: a bus data item, an operand, a register offset (R4, R12, R40). -/
abbrev Byte := BitVec 8

/-- A decoded sample or a response (R15, R110). -/
abbrev Half := BitVec 16

/-- A command word, `CMD_W` = 24 bits (R4, R60). -/
abbrev CmdWord := BitVec 24

/-- A device address on the bus, 7 bits (R4). PRESUMED: the width is G1 of 93_implementation_defined.md
(notes/assumptions/12.md). -/
abbrev DevAddr := BitVec 7

/-- The delay counter and its load value, `SPIN_W` = 32 bits (R4, R19). -/
abbrev Count := BitVec 32

end Sys2Proof
end

