-- ==== Sys2Proof/Syntax.lean ====
section
/-! DEFINITION. The five commands of 30_encoding.md R62, and nothing else (R1, R66, R155): the block's instructions. -/

namespace Sys2Proof

/-- One constructor per row of the opcode map R62; every operand is an immediate byte (R61). -/
inductive Instr where
  /-- `RDVR a`: virtual-register read of register `a` (R80). -/
  | rdvr (a : Byte)
  /-- `RDPR a`: direct physical-register read of offset `a` (R100). -/
  | rdpr (a : Byte)
  /-- `SELCH m`: channel select, mask `m` (R130). -/
  | selch (m : Byte)
  /-- `DECV lo, hi`: pair decode through virtual registers (R111); low address first, as in the text (R67). -/
  | decv (lo hi : Byte)
  /-- `DECP lo, hi`: pair decode through direct reads (R112). -/
  | decp (lo hi : Byte)
  deriving DecidableEq, Repr

/-- The mnemonics of the opcode map (R62), as the assembler writes them (R67). -/
inductive Mnemonic where
  | RDVR | RDPR | SELCH | DECV | DECP
  deriving DecidableEq, Repr

/-- One line of the assembler syntax R67: a mnemonic and numerals, in the order of the text. DESIGN CHOICE: the spelling is
not modelled (notes/assumptions/15.md). -/
structure SourceLine where
  mnemonic : Mnemonic
  operands : List Nat
  deriving DecidableEq, Repr

/-- The line R67 writes for a command. -/
def Instr.line : Instr → SourceLine
  | .rdvr a => ⟨.RDVR, [a.toNat]⟩
  | .rdpr a => ⟨.RDPR, [a.toNat]⟩
  | .selch m => ⟨.SELCH, [m.toNat]⟩
  | .decv lo hi => ⟨.DECV, [lo.toNat, hi.toNat]⟩
  | .decp lo hi => ⟨.DECP, [lo.toNat, hi.toNat]⟩

end Sys2Proof
end

