-- ==== Sys2Proof/WellFormed.lean ====
section
/-! DEFINITION. When a line of the assembler syntax is a command (30_encoding.md R67): its mnemonic's number of operands,
each in 0 to 255. The operands of an `Instr` are bytes, so its line always passes both checks. -/

namespace Sys2Proof

/-- How many operands a mnemonic takes (R62, R67). -/
def Mnemonic.arity : Mnemonic → Nat
  | .RDVR => 1
  | .RDPR => 1
  | .SELCH => 1
  | .DECV => 2
  | .DECP => 2

/-- The two checks on a line: the operand count of its mnemonic, and "Each operand must be in 0 to 255" (R67). -/
def SourceLine.wellFormed (l : SourceLine) : Bool :=
  decide (l.operands.length = l.mnemonic.arity) && l.operands.all (fun n => decide (n ≤ 255))

/-- A command is well formed when its line is. -/
def Instr.wellFormed (i : Instr) : Bool := i.line.wellFormed

/-- The command a line stands for; none for a line that fails a check. -/
def SourceLine.assemble (l : SourceLine) : Option Instr :=
  if l.wellFormed then
    match l.mnemonic, l.operands with
    | .RDVR, [a] => some (.rdvr (BitVec.ofNat 8 a))
    | .RDPR, [a] => some (.rdpr (BitVec.ofNat 8 a))
    | .SELCH, [m] => some (.selch (BitVec.ofNat 8 m))
    | .DECV, [lo, hi] => some (.decv (BitVec.ofNat 8 lo) (BitVec.ofNat 8 hi))
    | .DECP, [lo, hi] => some (.decp (BitVec.ofNat 8 lo) (BitVec.ofNat 8 hi))
    | _, _ => none
  else none

end Sys2Proof
end

