-- ==== Sys2Proof/Decode.lean ====
section
/-! DEFINITION. The command word (30_encoding.md R60 to R65): its fields, the opcode map, the decoder, total on every
word, and the encoder, both written from the tables of R60 and R62. -/

namespace Sys2Proof

/-- `OPC` = `cmd_word[23:16]` (R61). -/
def opcField (w : CmdWord) : Byte := w.extractLsb' 16 8

/-- `B` = `cmd_word[15:8]` (R61). -/
def bField (w : CmdWord) : Byte := w.extractLsb' 8 8

/-- `A` = `cmd_word[7:0]` (R61). -/
def aField (w : CmdWord) : Byte := w.extractLsb' 0 8

/-- The word `{OPC, B, A}` (R60). -/
def packWord (opc b a : Byte) : CmdWord := (opc ++ b) ++ a

/-- The opcode bytes of R62. -/
def opRDVR : Byte := 0x01#8
def opRDPR : Byte := 0x02#8
def opSELCH : Byte := 0x03#8
def opDECV : Byte := 0x04#8
def opDECP : Byte := 0x05#8

/-- One row of the opcode map R62: "A word `w` selects a row when `w & mask = match`." -/
structure OpRow where
  mnemonic : Mnemonic
  pattern : CmdWord
  mask : CmdWord
  deriving DecidableEq, Repr

/-- The opcode map R62, in its order. -/
def opcodeMap : List OpRow :=
  [ ⟨.RDVR, 0x010000#24, 0xFFFF00#24⟩,
    ⟨.RDPR, 0x020000#24, 0xFFFF00#24⟩,
    ⟨.SELCH, 0x030000#24, 0xFFFF00#24⟩,
    ⟨.DECV, 0x040000#24, 0xFF0000#24⟩,
    ⟨.DECP, 0x050000#24, 0xFF0000#24⟩ ]

/-- A word selects a row (R62). -/
def OpRow.selects (r : OpRow) (w : CmdWord) : Bool := w &&& r.mask == r.pattern

/-- The operands of a row, taken whole from the word's fields (R61, R63). -/
def Mnemonic.withFields (m : Mnemonic) (w : CmdWord) : Instr :=
  match m with
  | .RDVR => .rdvr (aField w)
  | .RDPR => .rdpr (aField w)
  | .SELCH => .selch (aField w)
  | .DECV => .decv (aField w) (bField w)
  | .DECP => .decp (aField w) (bField w)

/-- The decoder: the row the word selects (R62, R64); none for an illegal word (R65). -/
def decode (w : CmdWord) : Option Instr :=
  (opcodeMap.find? (fun r => r.selects w)).map (fun r => r.mnemonic.withFields w)

/-- The encoder: the words of R67's table, `0x01_00_aa` and so on. -/
def encode : Instr → CmdWord
  | .rdvr a => packWord opRDVR 0x00#8 a
  | .rdpr a => packWord opRDPR 0x00#8 a
  | .selch m => packWord opSELCH 0x00#8 m
  | .decv lo hi => packWord opDECV hi lo
  | .decp lo hi => packWord opDECP hi lo

/-- The host's decode check: a command is one 24-bit word on `cmd_word`, its bits numbered as the table numbers them. -/
def decodeTableWord (nbits w : Nat) : Option Instr := decode (BitVec.ofNat 24 (w % 2 ^ nbits))

end Sys2Proof
end

