-- ==== Sys2Proof/Machine/Ports.lean ====
section
/-! DEFINITION. The input pins of 10_state.md R24, the transport requests of R28 and R70, and the events of the history
that 20_memory.md R58 asks a model to record. -/

namespace Sys2Proof.Machine

/-- The input ports of R24 in one cycle, `rst` included; `clk` is the step itself (R7). -/
structure Inputs where
  /-- `rst`: synchronous reset, active high (R170). -/
  rst : Bool
  /-- `cmd_valid`: the host offers a command. -/
  cmdValid : Bool
  /-- `cmd_word`: the command offered (R60). -/
  cmdWord : CmdWord
  /-- `resp_ready`: the host takes the result. -/
  respReady : Bool
  /-- `t_req_ready`: the transport accepts the offered transaction. -/
  tReqReady : Bool
  /-- `t_rsp_valid`: the transport answers the accepted transaction. -/
  tRspValid : Bool
  /-- `t_rsp_err`: with `t_rsp_valid`, the transaction failed. -/
  tRspErr : Bool
  /-- `t_rsp_rdata`: the byte read. -/
  tRspRdata : Byte
  deriving DecidableEq, Repr, Inhabited

/-- The transport primitives of R41 in the order of R70. `readByte` is never issued (R45). -/
inductive Kind where
  | writeByte | writeByteData | readByte | readByteData
  deriving DecidableEq, Repr

/-- `t_req_kind[1:0]` (R70): bit 1 is "read", bit 0 is "has a register offset". -/
def Kind.code : Kind → BitVec 2
  | .writeByte => 0#2
  | .writeByteData => 1#2
  | .readByte => 2#2
  | .readByteData => 3#2

/-- A request on the transport port (R28, R58): the tuple `(kind, dev, reg, wdata)`. -/
structure Request where
  kind : Kind
  dev : DevAddr
  reg : Byte
  wdata : Byte
  deriving DecidableEq, Repr

/-- `write_byte(dev, v)` (R44): no register offset, `t_req_reg` driven 0x00. -/
def Request.writeByte (dev : DevAddr) (v : Byte) : Request := ⟨.writeByte, dev, 0x00#8, v⟩

/-- `write_byte_data(dev, reg, v)` (R42). -/
def Request.writeByteData (dev : DevAddr) (reg v : Byte) : Request := ⟨.writeByteData, dev, reg, v⟩

/-- `read_byte_data(dev, reg)` (R43): `t_req_wdata` driven 0x00. -/
def Request.readByteData (dev : DevAddr) (reg : Byte) : Request := ⟨.readByteData, dev, reg, 0x00#8⟩

/-- The answer to a transaction as the block sees it (R30, R46): success of a write, success of a read with its byte,
or failure. The data of a write's or a failed answer is not looked at. DESIGN CHOICE: it is not kept
(notes/assumptions/13.md). -/
inductive Answer where
  | ok
  | byte (d : Byte)
  | err
  deriving DecidableEq, Repr

/-- One event of the record R58: the acceptance of a request, or an answer the block took. -/
inductive Event where
  | request (r : Request)
  | answer (a : Answer)
  deriving DecidableEq, Repr

end Sys2Proof.Machine
end

