-- ==== Sys2Proof/Config.lean ====
section
/-! DEFINITION. What an instance fixes (00_scope.md R4) and what nothing in the spec determines (20_memory.md R52):
constants with no body, of which no proof can see a value. -/

namespace Sys2Proof

/-- The open parameters of R4. No relation among them is assumed. -/
structure Params where
  /-- `DEV_VR`: the device read through the virtual-register protocol. -/
  devVr : DevAddr
  /-- `WREG`: the offset written in step 1. -/
  wreg : Byte
  /-- `RREG`: the offset read in step 4. -/
  rreg : Byte
  /-- `DEV_PR`: the device read directly. -/
  devPr : DevAddr
  /-- `DEV_MUX`: the multiplexer. -/
  devMux : DevAddr
  /-- `SPIN_COUNT`: iterations of each wait. -/
  spinCount : Count
  deriving DecidableEq, Repr, Inhabited

/-- `NCHAN` of R4: how many one-hot channel selectors are defined. -/
def nchan : Nat := 6

/-- The parameters of the instance that `State.reset` describes: OPEN (R4, D9), so without a body.
DESIGN CHOICE (notes/assumptions/3.md). Safe: nothing can be proved of a value. -/
opaque Config.params : Params

/-- FREE VALUE, DESIGN CHOICE. The input pins in cycle `n` after the event history `h`, where no script gives them: commands, transport
readiness, answers, bytes read and `rst` are whatever the host and the transport do (R9, R52, U1, U2, U14;
notes/assumptions/2.md). -/
opaque Config.freeInputs (n : Nat) (h : List Machine.Event) : Machine.Inputs

end Sys2Proof
end

