-- ==== Sys2Proof/Machine/State.lean ====
section
/-! DEFINITION. The state of the block (10_state.md R10 to R21), its reset (R33), and the reasons a step can stop. Beside
the block's registers stand the instance's constants (R4) and the environment's script and record, as plain data. -/

namespace Sys2Proof.Machine

/-- The phase register `PHASE` (R16): "A model should make `PHASE` an enumeration of the nine names". -/
inductive Phase where
  | idle | vrw | dly1 | dly2 | vrr | prr | mxw | rsp | flt
  deriving DecidableEq, Repr

/-- The fault cause `FCAUSE` (R20, R140); the value 3 is never written and has no name (U8;
notes/assumptions/14.md). -/
inductive Cause where
  | none | transportError | illegalCommand
  deriving DecidableEq, Repr

structure State where
  /-- `PHASE` (R16). -/
  phase : Phase
  /-- `TPEND` (R18). -/
  tpend : Bool
  /-- `DSTEP` (R17): false while the high byte is being read. -/
  dstep : Bool
  /-- `DCNT` (R19). -/
  dcnt : Count
  /-- `OPC` (R11). -/
  opc : Byte
  /-- `A` (R12). -/
  a : Byte
  /-- `B` (R13). -/
  b : Byte
  /-- `HI` (R14). -/
  hi : Byte
  /-- `RES` (R15). -/
  res : Half
  /-- `FCAUSE` (R20). -/
  fcause : Cause
  /-- `FPHASE` (R21): a value of `PHASE`. -/
  fphase : Phase
  /-- The constants of R4: no step writes them. DESIGN CHOICE, safe (notes/assumptions/3.md). -/
  params : Params
  /-- The model's own: the input pins in the coming cycles, head first. DESIGN CHOICE
  (notes/assumptions/2.md). -/
  script : List Inputs
  /-- The model's own: cycles passed, the counter of the free values. DESIGN CHOICE (notes/assumptions/2.md). -/
  cycle : Nat
  /-- The model's own: the event history R58 asks for; "The record is not state of the block".
  DESIGN CHOICE, safe (notes/assumptions/5.md). -/
  record : List Event
  deriving DecidableEq, Repr

/-- Why a step would stop with a fault. It never does: the two faults of R140 are states, `PHASE = FLT`, that the next
cycle finds and only `rst` leaves (R143 to R145), so this type has no constructor. DEDUCED (notes/assumptions/6.md). Safe: nothing can raise it. -/
inductive Fault where
  deriving DecidableEq, Repr

/-- Why a step can be refused. -/
inductive Refusal where
  /-- Raised by an arm of `exec` without a meaning; no arm is left so. Safe. -/
  | notModelled (mnemonic : String)
  /-- Raised by a successful answer in `VRR` or `PRR` while the command in progress has no delivery rule for that phase:
  R87 and R102 give no branch for it ("No other opcode can be in `OPC`"), so such a state is outside the model (U8).
  No state that meets `State.Inv` raises it. DEDUCED (notes/assumptions/7.md). Safe. -/
  | noDeliveryRule
  deriving DecidableEq, Repr

/-- The outcome of a cycle. -/
abbrev Result := Host.Outcome State Fault Refusal

/-- The machine right after reset (R33), its instance's constants as `Config.params` says, no script, an empty record. -/
def State.reset : State where
  phase := .idle
  tpend := false
  dstep := false
  dcnt := 0#32
  opc := 0x00#8
  a := 0x00#8
  b := 0x00#8
  hi := 0x00#8
  res := 0x0000#16
  fcause := .none
  fphase := .idle
  params := Config.params
  script := []
  cycle := 0
  record := []

end Sys2Proof.Machine
end

