-- ==== Sys2Proof/Machine/Flags.lean ====
section
/-! DEFINITION. The status flags (10_state.md R22), the numbers of `PHASE` and `FCAUSE` on their outputs (R16, R20), and
which phases are transaction phases (R18). There are no condition codes (R22). -/

namespace Sys2Proof.Machine

/-- The numbers of the phases (R16): they matter only on `fphase`. -/
def Phase.code : Phase → BitVec 4
  | .idle => 0#4
  | .vrw => 1#4
  | .dly1 => 2#4
  | .dly2 => 3#4
  | .vrr => 4#4
  | .prr => 5#4
  | .mxw => 6#4
  | .rsp => 7#4
  | .flt => 15#4

/-- The numbers of the causes (R20). -/
def Cause.code : Cause → BitVec 2
  | .none => 0#2
  | .transportError => 1#2
  | .illegalCommand => 2#2

/-- "one of the four transaction phases (`VRW`, `VRR`, `PRR`, `MXW`)" (R18). -/
def Phase.isTransaction : Phase → Bool
  | .vrw => true
  | .vrr => true
  | .prr => true
  | .mxw => true
  | .idle => false
  | .dly1 => false
  | .dly2 => false
  | .rsp => false
  | .flt => false

/-- `busy` = 1 exactly when `PHASE ≠ IDLE` (R22). -/
def State.busy (s : State) : Bool := s.phase != .idle

/-- `fault` = 1 exactly when `PHASE = FLT` (R22). -/
def State.fault (s : State) : Bool := s.phase == .flt

end Sys2Proof.Machine
end

