-- ==== Sys2Proof/Machine/Operands.lean ====
section
/-! DEFINITION. The operands of the command in progress as they go on the bus: `CUR` (10_state.md R29), the Register
Address with bit 7 cleared and the mask whole (30_encoding.md R63), and the request each phase drives (R28). -/

namespace Sys2Proof.Machine

/-- `operand & 0x7F`: a Register Address as transmitted (R63 a, R82, R104). -/
def transmitted (operand : Byte) : Byte := operand &&& 0x7F#8

/-- `OPC ∈ {DECV, DECP}` (R29): a pair decode is in progress. -/
def State.isPair (s : State) : Bool := s.opc == opDECV || s.opc == opDECP

/-- `CUR` (R29): the register address of the single-byte read in progress. -/
def State.cur (s : State) : Byte := if s.isPair && !s.dstep then s.b else s.a

/-- The request columns of R28: what the phase drives, whether or not it is being offered; none in "any other" phase. -/
def State.drivenRequest (s : State) : Option Request :=
  match s.phase with
  | .vrw => some (.writeByteData s.params.devVr s.params.wreg (transmitted s.cur))
  | .vrr => some (.readByteData s.params.devVr s.params.rreg)
  | .prr => some (.readByteData s.params.devPr (transmitted s.cur))
  | .mxw => some (.writeByte s.params.devMux s.a)
  | .idle => none
  | .dly1 => none
  | .dly2 => none
  | .rsp => none
  | .flt => none

/-- The word latched in `OPC`, `B`, `A` at the acceptance of the command in progress (R11 to R13). -/
def State.latchedWord (s : State) : CmdWord := packWord s.opc s.b s.a

/-- The command in progress, by its latched opcode byte alone: "if `OPC` = `RDVR`", ... (R11, R87, R102); none for a byte
that is no opcode (R65). -/
def State.latchedCommand (s : State) : Option Instr :=
  if s.opc = opRDVR then some (.rdvr s.a)
  else if s.opc = opRDPR then some (.rdpr s.a)
  else if s.opc = opSELCH then some (.selch s.a)
  else if s.opc = opDECV then some (.decv s.a s.b)
  else if s.opc = opDECP then some (.decp s.a s.b)
  else none

end Sys2Proof.Machine
end

