-- ==== Sys2Proof/Machine/Outputs.lean ====
section
/-! DEFINITION. The output ports of 10_state.md R24 as functions of the state alone (R25 to R28, 00_scope.md R7). -/

namespace Sys2Proof.Machine

/-- The output ports of R24. -/
structure Outputs where
  cmdReady : Bool
  respValid : Bool
  respData : Half
  busy : Bool
  fault : Bool
  fcause : BitVec 2
  fphase : BitVec 4
  tReqValid : Bool
  tReqKind : BitVec 2
  tReqDev : DevAddr
  tReqReg : Byte
  tReqWdata : Byte
  deriving DecidableEq, Repr

/-- `cmd_ready` = 1 exactly when `PHASE = IDLE` (R25). -/
def State.cmdReady (s : State) : Bool := s.phase == .idle

/-- `resp_valid` = 1 exactly when `PHASE = RSP` (R27). -/
def State.respValid (s : State) : Bool := s.phase == .rsp

/-- `t_req_valid` (R28): 1 in a transaction phase with `TPEND` = 0. -/
def State.tReqValid (s : State) : Bool := s.phase.isTransaction && !s.tpend

/-- The request outputs while no phase drives one: "0 | 0 | 0x00 | 0x00" (R28). -/
def Request.undriven : Request := ⟨.writeByte, 0#7, 0x00#8, 0x00#8⟩

/-- The values on the `t_req_*` ports (R28). -/
def State.requestPorts (s : State) : Request := s.drivenRequest.getD Request.undriven

/-- Every output port of the block (R24). -/
def State.outputs (s : State) : Outputs where
  cmdReady := s.cmdReady
  respValid := s.respValid
  respData := s.res
  busy := s.busy
  fault := s.fault
  fcause := s.fcause.code
  fphase := s.fphase.code
  tReqValid := s.tReqValid
  tReqKind := s.requestPorts.kind.code
  tReqDev := s.requestPorts.dev
  tReqReg := s.requestPorts.reg
  tReqWdata := s.requestPorts.wdata

end Sys2Proof.Machine
end

