-- ==== Sys2Proof/Machine/Ops.lean ====
section
/-! DEFINITION. The named operations all commands share: the pins and the clock edge, reset (70_reset_and_hazards.md
R170), acceptance (30_encoding.md R64), fault entry (60_exceptions.md R143), completion (00_scope.md R6), the transaction
(20_memory.md R46), the delay timer (60_exceptions.md R151 to R153), and one cycle of a command in progress. -/

namespace Sys2Proof.Machine

/-- The input pins "as they are just before the edge" (R7): the script's head, and past its end a free value. -/
def State.inputs (s : State) : Inputs := s.script.headD (Config.freeInputs s.cycle s.record)

/-- The environment after one cycle: the next pins, the counter advanced. -/
def State.tick (s : State) : State := { s with script := s.script.tail, cycle := s.cycle + 1 }

/-- The block's registers at their reset values (R33, R170); parameters and environment are not touched (R173). -/
def State.resetBlock (s : State) : State :=
  { s with
    phase := .idle, tpend := false, dstep := false, dcnt := 0#32, opc := 0x00#8, a := 0x00#8, b := 0x00#8,
    hi := 0x00#8, res := 0x0000#16, fcause := .none, fphase := .idle }

/-- Adds an event to the record R58. -/
def State.log (s : State) (e : Event) : State := { s with record := s.record ++ [e] }

/-- TAKING A FAULT, `raise Fault(cause)` (R143): the cause and the phase are recorded, the block is in `FLT`, nothing
else is written. There is no return from it but reset (R145), which is `State.resetBlock`. -/
def raiseFault (c : Cause) (s : State) : State :=
  { s with fcause := c, fphase := s.phase, phase := .flt, tpend := false }

/-- The latching of an accepted word, legal or not (R64, R65). -/
def latch (w : CmdWord) (s : State) : State :=
  { s with opc := opcField w, b := bField w, a := aField w, dstep := false, tpend := false }

/-- The acceptance of a legal command, whose first phase is `start` (R64). -/
def accept (w : CmdWord) (start : Phase) (s : State) : State := { latch w s with phase := start }

/-- The acceptance of an illegal word (R65, R142). -/
def acceptIllegal (w : CmdWord) (s : State) : State := raiseFault .illegalCommand (latch w s)

/-- `complete(v)` (R6, R27). -/
def complete (v : Half) (s : State) : State := { s with res := v, phase := .rsp, tpend := false }

/-- `complete()` (R6, R27): `RES` unchanged. -/
def completeSilently (s : State) : State := { s with phase := .rsp, tpend := false }

/-- A request is offered, and accepted when `t_req_ready` = 1 (R46, R81, R86, R101, R131). -/
def offer (s : State) : State :=
  match s.drivenRequest with
  | some r => if s.inputs.tReqReady then { s.log (.request r) with tpend := true } else s
  | none => s

/-- One cycle of a transaction phase (R46): offer while `TPEND` = 0; then await the answer, a failure being fatal (R141). -/
def transactionCycle (onSuccess : State → Result) (s : State) : Result :=
  if s.tpend then
    if s.inputs.tRspValid then
      if s.inputs.tRspErr then .next (raiseFault .transportError (s.log (.answer .err))) else onSuccess s
    else .next s
  else .next (offer s)

/-- A write's transaction: success carries no byte (R42, R44). -/
def writeCycle (onOk : State → State) (s : State) : Result :=
  transactionCycle (fun u => .next (onOk (u.log (.answer .ok)))) s

/-- A read's transaction: success delivers `t_rsp_rdata` (R43). -/
def readCycle (onByte : Byte → State → Result) (s : State) : Result :=
  transactionCycle (fun u => onByte u.inputs.tRspRdata (u.log (.answer (.byte u.inputs.tRspRdata)))) s

/-- The timer start `DCNT <- SPIN_COUNT` (R151). -/
def startTimer (s : State) : State := { s with dcnt := s.params.spinCount }

/-- One cycle of a wait: a tick (R152), or at zero the expiry (R153). -/
def delayCycle (onExpiry : State → State) (s : State) : State :=
  if s.dcnt = 0#32 then onExpiry s else { s with dcnt := s.dcnt - 1#32 }

/-- Phase `VRW` (R81, R83): the write of the register number; answered, the first wait starts. -/
def writeNumberCycle (s : State) : Result :=
  writeCycle (fun u => { startTimer u with phase := .dly1, tpend := false }) s

/-- Phase `DLY1` (R84): the first wait; expired, the second starts at once. DEDUCED: `TPEND` is not written
(notes/assumptions/8.md). -/
def firstWaitCycle (s : State) : State := delayCycle (fun u => { startTimer u with phase := .dly2 }) s

/-- Phase `DLY2` (R85): the second wait; expired, the read follows. -/
def secondWaitCycle (s : State) : State := delayCycle (fun u => { u with phase := .vrr, tpend := false }) s

/-- Phase `MXW` (R131, R132): the write of the mask; answered, the command completes. -/
def writeMaskCycle (s : State) : Result := writeCycle completeSilently s

/-- Phase `RSP` (R27): the response waits for `resp_ready`. -/
def responseCycle (s : State) : State := if s.inputs.respReady then { s with phase := .idle } else s

/-- No delivery rule for a byte (R87, R102; U8). -/
def noDelivery (_ : Byte) (_ : State) : Result := .refused .noDeliveryRule

/-- One cycle of the block in every phase (10_state.md R34), `onVirtual` and `onDirect` being the delivery rules of the
command in progress for a byte read in `VRR` (R87) and in `PRR` (R102). `IDLE` and `FLT` hold (R71, R144). -/
def phaseCycle (onVirtual onDirect : Byte → State → Result) (s : State) : Result :=
  match s.phase with
  | .idle => .next s
  | .vrw => writeNumberCycle s
  | .dly1 => .next (firstWaitCycle s)
  | .dly2 => .next (secondWaitCycle s)
  | .vrr => readCycle onVirtual s
  | .prr => readCycle onDirect s
  | .mxw => writeMaskCycle s
  | .rsp => .next (responseCycle s)
  | .flt => .next s

/-- One cycle of a command: in `IDLE` its acceptance (R64), in every other phase that phase's rule. -/
def commandCycle (w : CmdWord) (start : Phase) (onVirtual onDirect : Byte → State → Result) (s : State) : Result :=
  if s.phase = .idle then .next (accept w start s) else phaseCycle onVirtual onDirect s

/-- The command a cycle belongs to: in `IDLE` the legal one offered on the command port (R25, R64), in every other phase
the one whose opcode is latched. -/
def State.command (s : State) : Option Instr :=
  if s.phase = .idle then
    if s.inputs.cmdValid then decode s.inputs.cmdWord else none
  else s.latchedCommand

/-- A cycle that belongs to no legal command: in `IDLE` an illegal word is accepted (R65) or nothing happens (R71); a
phase in which no opcode is latched (`FLT`, or none that a run reaches) follows that phase's rule. -/
def noCommandCycle (s : State) : Result :=
  if s.phase = .idle then
    if s.inputs.cmdValid then .next (acceptIllegal s.inputs.cmdWord s) else .next s
  else phaseCycle noDelivery noDelivery s

/-- The environment's part of a cycle that went on. -/
def advance (r : Result) : Result :=
  match r with
  | .next t => .next t.tick
  | .fault f => .fault f
  | .refused x => .refused x

/-- The clock edge: `rst` = 1 wins over every other rule (R146, R170); else the cycle's result stands. DEDUCED: with
`rst` = 1 no answer is recorded (notes/assumptions/11.md). -/
def clockEdge (s : State) (r : Result) : Result :=
  if s.inputs.rst then .next s.resetBlock.tick else advance r

end Sys2Proof.Machine
end

