-- ==== Sys2Proof/Machine/ChannelSelect.lean ====
section
/-! DEFINITION. `SELCH`, the channel select (43_channel_select.md), and the six masks the source defines. -/

namespace Sys2Proof.Machine

/-- `SELCH m` (R130): write the mask, whole and unchanged, to the multiplexer (R131 to R133), one cycle a step. -/
def execSelch (m : Byte) (s : State) : Result := commandCycle (encode (.selch m)) .mxw noDelivery noDelivery s

/-- The six one-hot masks the source defines, in the order of its list (R133). -/
def channelMask (k : Fin nchan) : Byte := 1#8 <<< k.val

end Sys2Proof.Machine
end

