-- ==== Sys2Proof/Machine/VirtualRead.lean ====
section
/-! DEFINITION. `RDVR`, the virtual-register read (40_virtual_register_read.md). -/

namespace Sys2Proof.Machine

/-- Delivery of the byte of a single read, `complete(zext_16(d))` (R89, R103): "no masking, no sign extension, no check". -/
def deliverByte (d : Byte) (s : State) : Result := .next (complete (d.setWidth 16) s)

/-- `RDVR a` (R80): write `a & 0x7F` to `WREG` (R81 to R83), two waits (R84, R85), read `RREG` (R86, R87), return the
byte (R89), one cycle a step. -/
def execRdvr (a : Byte) (s : State) : Result := commandCycle (encode (.rdvr a)) .vrw deliverByte noDelivery s

end Sys2Proof.Machine
end

