-- ==== Sys2Proof/Machine/DirectRead.lean ====
section
/-! DEFINITION. `RDPR`, the direct physical-register read (41_direct_register_read.md). -/

namespace Sys2Proof.Machine

/-- `RDPR a` (R100): read offset `a & 0x7F` of `DEV_PR` (R101, R102, R104), return the byte (R103), one cycle a step. -/
def execRdpr (a : Byte) (s : State) : Result := commandCycle (encode (.rdpr a)) .prr noDelivery deliverByte s

end Sys2Proof.Machine
end

