-- ==== Sys2Proof/Machine/PairDecode.lean ====
section
/-! DEFINITION. `DECV` and `DECP`, the signed 16-bit register-pair decode, and the combiner DEC (42_pair_decode.md). -/

namespace Sys2Proof.Machine

/-- `combine(hi, lo) = (zext_16(hi) << 8) | zext_16(lo)` (R110). -/
def combine (hi lo : Byte) : Half := (hi.setWidth 16 <<< 8) ||| lo.setWidth 16

/-- `signed16(w)`: `w` when `w < 0x8000` and `w − 0x10000` otherwise (R5). -/
def signed16 (w : Half) : Int := if w.toNat < 0x8000 then w.toNat else (w.toNat : Int) - 0x10000

/-- `decode_value(hi, lo) = signed16(combine(hi, lo))` (R110). -/
def decodeValue (hi lo : Byte) : Int := signed16 (combine hi lo)

/-- Delivery of the first byte (R114): kept in `HI`, and the second single-byte read starts in `again`. -/
def deliverFirst (again : Phase) (d : Byte) (s : State) : State :=
  { s with hi := d, dstep := true, tpend := false, phase := again }

/-- Delivery of the second byte, `complete(combine(HI, d))` (R115). -/
def deliverSecond (d : Byte) (s : State) : State := complete (combine s.hi d) s

/-- Delivery in a pair decode: high byte first, low byte second (R113). -/
def deliverPair (again : Phase) (d : Byte) (s : State) : Result :=
  if s.dstep then .next (deliverSecond d s) else .next (deliverFirst again d s)

/-- `DECV lo, hi` (R111): the virtual-register sequence for `hi`, then for `lo`, one cycle a step. -/
def execDecv (lo hi : Byte) (s : State) : Result :=
  commandCycle (encode (.decv lo hi)) .vrw (deliverPair .vrw) noDelivery s

/-- `DECP lo, hi` (R112): the direct read of `hi`, then of `lo`, one cycle a step. -/
def execDecp (lo hi : Byte) (s : State) : Result :=
  commandCycle (encode (.decp lo hi)) .prr noDelivery (deliverPair .prr) s

end Sys2Proof.Machine
end

