-- ==== Sys2Proof/Machine/Dispatch.lean ====
section
/-! DEFINITION. One cycle of the block on behalf of a command: its acceptance in IDLE, then its phases (30_encoding.md R62). -/

namespace Sys2Proof.Machine

def exec (i : Instr) (s : State) : Host.Outcome State Fault Refusal :=
  match i with
  | .rdvr a => Sys2Proof.Machine.execRdvr a s
  | .rdpr a => Sys2Proof.Machine.execRdpr a s
  | .selch m => Sys2Proof.Machine.execSelch m s
  | .decv lo hi => Sys2Proof.Machine.execDecv lo hi s
  | .decp lo hi => Sys2Proof.Machine.execDecp lo hi s

end Sys2Proof.Machine
end

