-- ==== Sys2Proof/Machine/Step.lean ====
section
/-! DEFINITION. One step is one rising edge of `clk` (00_scope.md R7), and the placing of a command on the command port. -/

namespace Sys2Proof.Machine

/-- One cycle: the command it belongs to runs its phase's rule, unless `rst` = 1 (R7, R34, R170). DESIGN CHOICE: a step is
one cycle, not one command (notes/assumptions/1.md). -/
def step (s : State) : Host.Outcome State Fault Refusal :=
  clockEdge s
    (match s.command with
    | some i => exec i s
    | none => noCommandCycle s)

/-- `s` waiting in `IDLE` with the word offered on the command port and `rst` = 0, so that the next cycle accepts it
(R64); the other pins and every other field stay. DESIGN CHOICE (notes/assumptions/4.md). -/
def State.withFetchWord (s : State) (nbits w : Nat) : State :=
  { s with
    phase := .idle
    script := { s.inputs with rst := false, cmdValid := true, cmdWord := BitVec.ofNat 24 (w % 2 ^ nbits) }
      :: s.script.tail }

end Sys2Proof.Machine
end

