-- ==== Sys2Proof/Machine/Table.lean ====
section
/-! DEFINITION. The transition table 10_state.md R34, row by row, as a relation of its own: "an index" of the phase rules.
No step uses it; it is the second description the machine is compared with. The writes are the table's; the record R58
grows by the event of the row. -/

namespace Sys2Proof.Machine

/-- "Answer ok" (R34): `t_rsp_valid` = 1 and `t_rsp_err` = 0. -/
def State.answerOk (s : State) : Prop := s.inputs.tRspValid = true ∧ s.inputs.tRspErr = false

/-- "Answer error" (R34): `t_rsp_valid` = 1 and `t_rsp_err` = 1. -/
def State.answerError (s : State) : Prop := s.inputs.tRspValid = true ∧ s.inputs.tRspErr = true

/-- The three acceptance fields and the two cleared bits of the table's "accepted" rows. -/
def State.latched (s : State) : State :=
  { s with
    opc := s.inputs.cmdWord.extractLsb' 16 8, b := s.inputs.cmdWord.extractLsb' 8 8,
    a := s.inputs.cmdWord.extractLsb' 0 8, dstep := false, tpend := false }

/-- One row of R34 applies to `s` with `rst` = 0 and leads to `t`. -/
inductive TableRow (s : State) : State → Prop where
  | idleNone : s.phase = .idle → s.inputs.cmdValid = false → TableRow s s
  | idleVirtual : s.phase = .idle → s.inputs.cmdValid = true →
      s.inputs.cmdWord &&& 0xFFFF00#24 = 0x010000#24 ∨ s.inputs.cmdWord &&& 0xFF0000#24 = 0x040000#24 →
      TableRow s { s.latched with phase := .vrw }
  | idleDirect : s.phase = .idle → s.inputs.cmdValid = true →
      s.inputs.cmdWord &&& 0xFFFF00#24 = 0x020000#24 ∨ s.inputs.cmdWord &&& 0xFF0000#24 = 0x050000#24 →
      TableRow s { s.latched with phase := .prr }
  | idleSelect : s.phase = .idle → s.inputs.cmdValid = true →
      s.inputs.cmdWord &&& 0xFFFF00#24 = 0x030000#24 → TableRow s { s.latched with phase := .mxw }
  | idleIllegal : s.phase = .idle → s.inputs.cmdValid = true →
      s.inputs.cmdWord &&& 0xFFFF00#24 ≠ 0x010000#24 → s.inputs.cmdWord &&& 0xFFFF00#24 ≠ 0x020000#24 →
      s.inputs.cmdWord &&& 0xFFFF00#24 ≠ 0x030000#24 → s.inputs.cmdWord &&& 0xFF0000#24 ≠ 0x040000#24 →
      s.inputs.cmdWord &&& 0xFF0000#24 ≠ 0x050000#24 →
      TableRow s { s.latched with phase := .flt, fcause := .illegalCommand, fphase := .idle }
  | requested (r : Request) : s.phase.isTransaction = true → s.tpend = false → s.inputs.tReqReady = true →
      s.drivenRequest = some r → TableRow s { s with tpend := true, record := s.record ++ [.request r] }
  | notRequested : s.phase.isTransaction = true → s.tpend = false → s.inputs.tReqReady = false → TableRow s s
  | failed : s.phase.isTransaction = true → s.tpend = true → s.answerError →
      TableRow s { s with
        phase := .flt, fcause := .transportError, fphase := s.phase, tpend := false,
        record := s.record ++ [.answer .err] }
  | notAnswered : s.phase.isTransaction = true → s.tpend = true → s.inputs.tRspValid = false → TableRow s s
  | vrwOk : s.phase = .vrw → s.tpend = true → s.answerOk →
      TableRow s { s with
        phase := .dly1, dcnt := s.params.spinCount, tpend := false, record := s.record ++ [.answer .ok] }
  | dly1Tick : s.phase = .dly1 → s.dcnt ≠ 0#32 → TableRow s { s with dcnt := s.dcnt - 1#32 }
  | dly1End : s.phase = .dly1 → s.dcnt = 0#32 → TableRow s { s with phase := .dly2, dcnt := s.params.spinCount }
  | dly2Tick : s.phase = .dly2 → s.dcnt ≠ 0#32 → TableRow s { s with dcnt := s.dcnt - 1#32 }
  | dly2End : s.phase = .dly2 → s.dcnt = 0#32 → TableRow s { s with phase := .vrr, tpend := false }
  | vrrSingle : s.phase = .vrr → s.tpend = true → s.answerOk → s.opc = 0x01#8 →
      TableRow s { s with
        phase := .rsp, res := 0x00#8 ++ s.inputs.tRspRdata, tpend := false,
        record := s.record ++ [.answer (.byte s.inputs.tRspRdata)] }
  | vrrFirst : s.phase = .vrr → s.tpend = true → s.answerOk → s.opc = 0x04#8 → s.dstep = false →
      TableRow s { s with
        phase := .vrw, hi := s.inputs.tRspRdata, dstep := true, tpend := false,
        record := s.record ++ [.answer (.byte s.inputs.tRspRdata)] }
  | vrrSecond : s.phase = .vrr → s.tpend = true → s.answerOk → s.opc = 0x04#8 → s.dstep = true →
      TableRow s { s with
        phase := .rsp, res := s.hi ++ s.inputs.tRspRdata, tpend := false,
        record := s.record ++ [.answer (.byte s.inputs.tRspRdata)] }
  | prrSingle : s.phase = .prr → s.tpend = true → s.answerOk → s.opc = 0x02#8 →
      TableRow s { s with
        phase := .rsp, res := 0x00#8 ++ s.inputs.tRspRdata, tpend := false,
        record := s.record ++ [.answer (.byte s.inputs.tRspRdata)] }
  | prrFirst : s.phase = .prr → s.tpend = true → s.answerOk → s.opc = 0x05#8 → s.dstep = false →
      TableRow s { s with
        phase := .prr, hi := s.inputs.tRspRdata, dstep := true, tpend := false,
        record := s.record ++ [.answer (.byte s.inputs.tRspRdata)] }
  | prrSecond : s.phase = .prr → s.tpend = true → s.answerOk → s.opc = 0x05#8 → s.dstep = true →
      TableRow s { s with
        phase := .rsp, res := s.hi ++ s.inputs.tRspRdata, tpend := false,
        record := s.record ++ [.answer (.byte s.inputs.tRspRdata)] }
  | mxwOk : s.phase = .mxw → s.tpend = true → s.answerOk →
      TableRow s { s with phase := .rsp, tpend := false, record := s.record ++ [.answer .ok] }
  | rspTaken : s.phase = .rsp → s.inputs.respReady = true → TableRow s { s with phase := .idle }
  | rspHeld : s.phase = .rsp → s.inputs.respReady = false → TableRow s s
  | fltHeld : s.phase = .flt → TableRow s s

end Sys2Proof.Machine
end

