-- ==== Sys2Proof/Machine/Fixture.lean ====
section
/-! DEFINITION. The spec's reference devices (20_memory.md R53, R54; 92_eei_decisions.md D19): a test fixture, "not part
of the block". No step of the machine uses it; statements about the meaning of a byte take it as a premise (R52). -/

namespace Sys2Proof.Machine

/-- The virtual-register device (`PTR`, `VR[0..127]`), the multiplexer (`MUXSEL`), the accelerometers (`ACC[0..5][0..127]`). -/
structure Fixture where
  ptr : BitVec 7
  vr : Vector Byte 128
  muxsel : Byte
  acc : Vector (Vector Byte 128) 6
  deriving DecidableEq, Repr

/-- The accelerometer selected: `MUXSEL = 1 << k` for `k` in 0 to 5 (R54). -/
def channelOf (mask : Byte) : Option (Fin nchan) := (List.finRange nchan).find? (fun k => channelMask k == mask)

/-- `VR[PTR]` (R53). -/
def Fixture.virtualByte (f : Fixture) (n : BitVec 7) : Byte := f.vr[n.toNat]'n.isLt

/-- `ACC[k][r]` (R54). -/
def Fixture.physicalByte (f : Fixture) (k : Fin nchan) (r : BitVec 7) : Byte := (f.acc[k.val]'k.isLt)[r.toNat]'r.isLt

/-- The fixture's answer to a request and the fixture afterwards; none for a request the spec gives no device for, the
write variant with bit 7 set among them (U5). -/
def Fixture.respond (p : Params) (f : Fixture) (r : Request) : Option (Fixture × Answer) :=
  match r.kind with
  | .writeByteData =>
    if r.dev = p.devVr ∧ r.reg = p.wreg ∧ r.wdata.msb = false then
      some ({ f with ptr := r.wdata.setWidth 7 }, .ok)
    else none
  | .writeByte => if r.dev = p.devMux then some ({ f with muxsel := r.wdata }, .ok) else none
  | .readByteData =>
    if r.dev = p.devVr ∧ r.reg = p.rreg then some (f, .byte (f.virtualByte f.ptr))
    else if r.dev = p.devPr ∧ r.reg.msb = false then
      match channelOf f.muxsel with
      | some k => some (f, .byte (f.physicalByte k (r.reg.setWidth 7)))
      | none => some (f, .err)
    else none
  | .readByte => none

/-- The fixture after a record of answered requests that it would have answered so; none for any other record. -/
def Fixture.replay (p : Params) (f : Fixture) : List Event → Option Fixture
  | [] => some f
  | .request r :: .answer x :: h =>
    match f.respond p r with
    | some (g, y) => if x = y then g.replay p h else none
    | none => none
  | _ => none

end Sys2Proof.Machine
end

