-- ==== Sys2Proof/Machine/Selection.lean ====
section
/-! DEFINITION. The host that "must track which channel it last selected" (43_channel_select.md R134): its view of the
multiplexer's selector, which the block does not keep (10_state.md R31), followed cycle by cycle beside the machine. A mask
in this view is the premise of 70_reset_and_hazards.md R178. No step of the machine uses it. -/

namespace Sys2Proof.Machine

/-- DESIGN CHOICE (notes/assumptions/9.md). The host's view of the multiplexer's selector: the mask of the last completed
`SELCH`, as long as nothing that R178 excludes, no reset and no failure has come since; and the mask of a `SELCH` whose
write is unanswered. -/
structure Selector where
  known : Option Byte
  inFlight : Option Byte
  deriving DecidableEq, Repr

/-- Nothing is known: before the first `SELCH` (R175) and after a reset (R173). -/
def Selector.unknown : Selector := ⟨none, none⟩

/-- The premise of R178 for a direct read meant for the channel of `m`: the host knows that `m` is in force. -/
def Selector.selects (v : Selector) (m : Byte) : Bool := v == ⟨some m, none⟩

/-- A request that writes to the multiplexer's address, by either write primitive. DESIGN CHOICE
(notes/assumptions/9.md): with `DEV_MUX = DEV_VR` (R136 f) the number write of `RDVR` and `DECV` counts as R178's "other
write to the multiplexer", since the spec is silent on what it does to the selector. -/
def Request.writesMux (p : Params) (r : Request) : Bool :=
  r.dev == p.devMux && (r.kind == .writeByte || r.kind == .writeByteData)

/-- An event after which the selector is what it was: no write to the multiplexer's address is begun (R178) and nothing
failed. DEDUCED (notes/assumptions/9.md): "after a fault the devices' state is unknown" (U18, R145), so a failure of any
transaction, a read's too, ends what is known. -/
def Event.leavesSelector (p : Params) : Event → Bool
  | .request r => !r.writesMux p
  | .answer x => x != .err

/-- The view after one event of the record: a `SELCH`'s request puts its mask in flight, its success puts it in force;
any other write to the multiplexer's address and any failure leave nothing known (notes/assumptions/9.md). -/
def Selector.observe (p : Params) (v : Selector) (e : Event) : Selector :=
  match e with
  | .request r =>
    if r = .writeByte p.devMux r.wdata then ⟨none, some r.wdata⟩
    else if r.writesMux p then .unknown
    else ⟨v.known, none⟩
  | .answer .ok =>
    match v.inFlight with
    | some m => ⟨some m, none⟩
    | none => v
  | .answer (.byte _) => ⟨v.known, none⟩
  | .answer .err => .unknown

/-- The view after a record of events, nothing known at its beginning. -/
def selectorAfter (p : Params) (h : List Event) : Selector := h.foldl (Selector.observe p) .unknown

/-- The view after a cycle from `s` to `t`. A reset leaves nothing known ("the caller knows nothing until it issues a
`SELCH`", R173), and so does the host's own use of the transport in that cycle, `hostUses`, by which it may have written to
the multiplexer (R176, R180; notes/assumptions/16.md); else the events of the cycle are observed. DESIGN CHOICE
(notes/assumptions/17.md): after a reset taken with `TPEND` = 1 the spec leaves open whose a later answer is (U13); the view
takes every answer that the block takes as that of the request pending, a new `SELCH`'s too. What it then says of the
multiplexer has as its premise the host's duty of R171, to wait until the orphaned transaction has finished. -/
def Selector.track (v : Selector) (s t : State) (hostUses : Bool) : Selector :=
  if s.inputs.rst || hostUses then .unknown
  else (t.record.drop s.record.length).foldl (Selector.observe s.params) v

/-- The machine and the host's view of the selector run side by side, one entry of `uses` a cycle: whether the host uses
the transport itself in it. None where the machine stops. -/
def follow : List Bool → State → Selector → Option (State × Selector)
  | [], s, v => some (s, v)
  | u :: us, s, v =>
    match step s with
    | .next t => follow us t (v.track s t u)
    | .fault _ => none
    | .refused _ => none

end Sys2Proof.Machine
end

