-- ==== Sys2Proof/Safety.lean ====
section
/-! DEFINITION. The terms claims are stated in: the phases of a command, the requests the block may make
(20_memory.md R40), the invariant of the machine, runs, and stretches of input in which a transaction or a wait takes
place (20_memory.md R46, 70_reset_and_hazards.md R184). -/

namespace Sys2Proof.Machine

/-- The phases of a command between its acceptance and its response ("Phases" of R80, R100, R111, R112, R130). -/
def runsIn (i : Instr) (p : Phase) : Bool :=
  match i, p with
  | .rdvr _, .vrw => true
  | .rdvr _, .dly1 => true
  | .rdvr _, .dly2 => true
  | .rdvr _, .vrr => true
  | .rdvr _, .rsp => true
  | .decv _ _, .vrw => true
  | .decv _ _, .dly1 => true
  | .decv _ _, .dly2 => true
  | .decv _ _, .vrr => true
  | .decv _ _, .rsp => true
  | .rdpr _, .prr => true
  | .rdpr _, .rsp => true
  | .decp _ _, .prr => true
  | .decp _ _, .rsp => true
  | .selch _, .mxw => true
  | .selch _, .rsp => true
  | _, _ => false

/-- The first phase of a command (R64). -/
def firstPhase : Instr → Phase
  | .rdvr _ => .vrw
  | .rdpr _ => .prr
  | .selch _ => .mxw
  | .decv _ _ => .vrw
  | .decp _ _ => .prr

/-- A command whose result is one byte (R116). -/
def returnsByte (i : Instr) : Bool :=
  match i with
  | .rdvr _ => true
  | .rdpr _ => true
  | .selch _ => false
  | .decv _ _ => false
  | .decp _ _ => false

/-- `i` is the command in progress in `s`: its word is latched (R11 to R13) and the phase is one of its phases. -/
def State.serving (s : State) (i : Instr) : Prop := s.latchedWord = encode i ∧ runsIn i s.phase = true

/-- What the instruction `i` can meet: `IDLE`, where it may be accepted, or itself in progress. -/
def State.meets (s : State) (i : Instr) : Prop := s.phase = .idle ∨ s.serving i

/-- A request the block may make: the locations and directions of R40, the primitives of R42 to R45, the payload of R82. -/
def Request.permitted (p : Params) (r : Request) : Bool :=
  match r.kind with
  | .writeByte => r.dev == p.devMux && r.reg == 0x00#8
  | .writeByteData => r.dev == p.devVr && r.reg == p.wreg && !r.wdata.msb
  | .readByte => false
  | .readByteData => r.wdata == 0x00#8 && ((r.dev == p.devVr && r.reg == p.rreg) || (r.dev == p.devPr && !r.reg.msb))

/-- An event of the record that the block may cause: answers are the transport's. -/
def Event.permitted (p : Params) : Event → Bool
  | .request r => r.permitted p
  | .answer _ => true

/-- The invariant of the machine: it holds at reset and every step keeps it. -/
structure State.Inv (s : State) : Prop where
  /-- Outside `IDLE` and `FLT` a command is in progress, in one of its phases (R64, R87, R102). -/
  inProgress : s.phase ≠ .idle → s.phase ≠ .flt → ∃ i, s.serving i
  /-- A transaction is pending only in a transaction phase (R18). -/
  pending : s.tpend = true → s.phase.isTransaction = true
  /-- The pending transaction is the last event of the record, as the phase drives it (R46). -/
  lastRequest : s.tpend = true → s.record.getLast? = s.drivenRequest.map Event.request
  /-- `DCNT` is 0 outside the waits and never above its load value (R153, R154). -/
  timerRests : s.phase ≠ .dly1 → s.phase ≠ .dly2 → s.dcnt = 0#32
  timerBounded : s.dcnt ≤ s.params.spinCount
  /-- `DSTEP` is 1 only in a pair decode (R17). -/
  halves : s.dstep = true → s.isPair = true
  /-- The response to a single read is a zero-extended byte (R27, R116). -/
  byteResult : s.phase = .rsp → ∀ i, s.serving i → returnsByte i = true → s.res.toNat < 256
  /-- The fault record is empty until a fault (R20, R21), and then names a cause and the phase that cause has (R140). -/
  noFault : s.phase ≠ .flt → s.fcause = .none ∧ s.fphase = .idle
  faulted : s.phase = .flt →
    (s.fcause = .transportError ∧ s.fphase.isTransaction = true) ∨ (s.fcause = .illegalCommand ∧ s.fphase = .idle)
  /-- Every request ever made is one the block may make (R40). -/
  onlyPermitted : s.record.all (Event.permitted s.params) = true

/-- "quiescent in `IDLE` or `FLT`" (R181). -/
def State.quiescent (s : State) : Bool := s.phase == .idle || s.phase == .flt

/-- The pins the block looks at in this cycle (R30, R170), every other pin masked to 0: two inputs with the same view
are the same to the block. -/
def State.looksAt (s : State) (x : Inputs) : Inputs where
  rst := x.rst
  cmdValid := !x.rst && s.phase == .idle && x.cmdValid
  cmdWord := if !x.rst && s.phase == .idle && x.cmdValid then x.cmdWord else 0#24
  respReady := !x.rst && s.phase == .rsp && x.respReady
  tReqReady := !x.rst && s.phase.isTransaction && !s.tpend && x.tReqReady
  tRspValid := !x.rst && s.phase.isTransaction && s.tpend && x.tRspValid
  tRspErr := !x.rst && s.phase.isTransaction && s.tpend && x.tRspValid && x.tRspErr
  tRspRdata :=
    if !x.rst && (s.phase == .vrr || s.phase == .prr) && s.tpend && x.tRspValid && !x.tRspErr then x.tRspRdata
    else 0x00#8

/-- `n` cycles of the machine. -/
def runFor (n : Nat) (s : State) : Result := Host.Core.run Sys2Proof.core n s

/-- The pins of a cycle in which the word `w` is offered and `rst` = 0 (R25). -/
def Inputs.offers (i : Inputs) (w : CmdWord) : Prop := i.rst = false ∧ i.cmdValid = true ∧ i.cmdWord = w

/-- A stretch of cycles without reset. -/
def undisturbed (ins : List Inputs) : Prop := ∀ i ∈ ins, i.rst = false

/-- The cycles of one transaction phase (R46, R184): `t_req_ready` low for any number of cycles, then high once, then no
answer for any number of cycles, then the answer, success with the byte `d` or failure; no reset. -/
def transacts (failed : Bool) (d : Byte) (ins : List Inputs) : Prop :=
  ∃ (before : List Inputs) (acceptance : Inputs) (between : List Inputs) (answer : Inputs),
    ins = before ++ acceptance :: (between ++ [answer]) ∧ undisturbed ins ∧
    (∀ i ∈ before, i.tReqReady = false) ∧ acceptance.tReqReady = true ∧
    (∀ i ∈ between, i.tRspValid = false) ∧
    answer.tRspValid = true ∧ answer.tRspErr = failed ∧ answer.tRspRdata = d

/-- The cycles of the two waits of a virtual-register sequence (R91): `2 × (SPIN_COUNT + 1)`, without reset. -/
def waitsTwice (p : Params) (ins : List Inputs) : Prop :=
  ins.length = 2 * (p.spinCount.toNat + 1) ∧ undisturbed ins

/-- The two events of a virtual-register sequence for `operand` that returned `d` (R80, S6). -/
def virtualEvents (p : Params) (operand d : Byte) : List Event :=
  [ .request (.writeByteData p.devVr p.wreg (transmitted operand)), .answer .ok,
    .request (.readByteData p.devVr p.rreg), .answer (.byte d) ]

/-- The events of a direct read of `operand` that returned `d` (R100). -/
def directEvents (p : Params) (operand d : Byte) : List Event :=
  [ .request (.readByteData p.devPr (transmitted operand)), .answer (.byte d) ]

/-- The events of a channel select with success (R130, S7). -/
def selectEvents (p : Params) (m : Byte) : List Event :=
  [ .request (.writeByte p.devMux m), .answer .ok ]

/-- The events of a virtual-register sequence whose write of the number failed (R83). -/
def failedNumberWrite (p : Params) (operand : Byte) : List Event :=
  [ .request (.writeByteData p.devVr p.wreg (transmitted operand)), .answer .err ]

/-- The events of a virtual-register sequence whose read failed (R87). -/
def failedVirtualRead (p : Params) (operand : Byte) : List Event :=
  [ .request (.writeByteData p.devVr p.wreg (transmitted operand)), .answer .ok,
    .request (.readByteData p.devVr p.rreg), .answer .err ]

/-- The events of a direct read that failed (R102). -/
def failedDirectRead (p : Params) (operand : Byte) : List Event :=
  [ .request (.readByteData p.devPr (transmitted operand)), .answer .err ]

end Sys2Proof.Machine
end

