-- ==== Sys2Proof/Certificates/Slice0/Obligations.lean ====
section
/-! DEFINITION. What the model claims of the machine, stated over every state. Where an equation gives the whole next
state, `script := …tail, cycle := … + 1` is the environment moving on by one cycle, and the `record` is the event history
of 20_memory.md R58. -/

open Sys2Proof Sys2Proof.Machine

/-! ### Reset and the step -/

/-- 10_state.md R33 (R170): "Value of every piece of state after a cycle with `rst` = 1", and the outputs just after. That
the record (R58) is as it was is the model's: it is kept through reset, DESIGN CHOICE (notes/assumptions/5.md), and takes no
answer in a cycle of reset, DEDUCED from R170 against vector F11 (notes/assumptions/11.md). -/
def Obligations.RstCycleLeavesTheResetState : Prop :=
  ∀ s : State, s.inputs.rst = true →
    ∃ t, step s = .next t ∧
      t = { s with
        phase := .idle, tpend := false, dstep := false, dcnt := 0#32, opc := 0x00#8, a := 0x00#8, b := 0x00#8,
        hi := 0x00#8, res := 0x0000#16, fcause := .none, fphase := .idle,
        script := s.script.tail, cycle := s.cycle + 1 } ∧
      t.outputs =
        { cmdReady := true, respValid := false, respData := 0x0000#16, busy := false, fault := false, fcause := 0#2,
          fphase := 0#4, tReqValid := false, tReqKind := 0#2, tReqDev := 0#7, tReqReg := 0x00#8, tReqWdata := 0x00#8 }

/-- The model's reset state has R33's values; the parameters are the instance's. Its empty script and record are the
model's own choice (notes/assumptions/2.md, 5.md) and are not claimed here. -/
def Obligations.ResetStateIsTheStatedOne : Prop :=
  State.reset.phase = .idle ∧ State.reset.tpend = false ∧ State.reset.dstep = false ∧ State.reset.dcnt = 0#32 ∧
  State.reset.opc = 0x00#8 ∧ State.reset.a = 0x00#8 ∧ State.reset.b = 0x00#8 ∧ State.reset.hi = 0x00#8 ∧
  State.reset.res = 0x0000#16 ∧ State.reset.fcause = .none ∧ State.reset.fphase = .idle ∧
  State.reset.params = Config.params ∧ State.reset.outputs.cmdReady = true ∧ State.reset.outputs.tReqValid = false

/-- A step runs the decoded command: in `IDLE` the one offered on the command port (R25, R64), later the one whose word
is latched (R11 to R13), or in any state the one whose opcode byte is (R87, R102). Around `exec` the step puts
the environment's move and nothing else. That `exec` is one cycle on behalf of a command is the model's: DESIGN CHOICE
(notes/assumptions/1.md). -/
def Obligations.StepRunsTheDecodedCommand : Prop :=
  ∀ (s : State) (i : Instr), s.inputs.rst = false →
    (s.phase = .idle ∧ s.inputs.cmdValid = true ∧ decode s.inputs.cmdWord = some i) ∨
      (s.phase ≠ .idle ∧ (decode s.latchedWord = some i ∨ s.latchedCommand = some i)) →
    step s =
      match exec i s with
      | .next t => .next { t with script := t.script.tail, cycle := t.cycle + 1 }
      | .fault f => .fault f
      | .refused x => .refused x

/-- 30_encoding.md R64: what every word does when it is accepted, by the masks of the opcode map. -/
def Obligations.EveryWordIsDispatched : Prop :=
  ∀ s : State, s.phase = .idle → s.inputs.rst = false → s.inputs.cmdValid = true →
    let w := s.inputs.cmdWord
    let u : State := { s with
      opc := w.extractLsb' 16 8, b := w.extractLsb' 8 8, a := w.extractLsb' 0 8, dstep := false, tpend := false,
      script := s.script.tail, cycle := s.cycle + 1 }
    step s = .next
      (if w &&& 0xFFFF00#24 = 0x010000#24 then { u with phase := .vrw }
       else if w &&& 0xFFFF00#24 = 0x020000#24 then { u with phase := .prr }
       else if w &&& 0xFFFF00#24 = 0x030000#24 then { u with phase := .mxw }
       else if w &&& 0xFF0000#24 = 0x040000#24 then { u with phase := .vrw }
       else if w &&& 0xFF0000#24 = 0x050000#24 then { u with phase := .prr }
       else { u with phase := .flt, fcause := .illegalCommand, fphase := .idle }) ∧
    ((∃ i, decode w = some i) → ∀ t, step s = .next t → t.outputs.tReqValid = true)

/-- 60_exceptions.md R142: a word no row of the opcode map selects faults at once, with no transaction of its own: the
record is the same after the fault and after every cycle until reset. -/
def Obligations.IllegalCommandFaults : Prop :=
  ∀ s : State, s.phase = .idle → s.inputs.rst = false → s.inputs.cmdValid = true →
    (∀ r ∈ opcodeMap, s.inputs.cmdWord &&& r.mask ≠ r.pattern) →
    ∃ t, step s = .next t ∧ t.phase = .flt ∧ t.fcause = .illegalCommand ∧ t.fphase = .idle ∧ t.record = s.record ∧
      ∀ (n : Nat) (ins rest : List Inputs), t.script = ins ++ rest → ins.length = n → undisturbed ins →
        ∃ u, runFor n t = .next u ∧ u.phase = .flt ∧ u.record = s.record

/-- 30_encoding.md R71. -/
def Obligations.IdleWithoutCommandHolds : Prop :=
  ∀ s : State, s.phase = .idle → s.inputs.rst = false → s.inputs.cmdValid = false →
    step s = .next { s with script := s.script.tail, cycle := s.cycle + 1 }

/-! ### The phases -/

/-- The first half of a transaction phase (R81, R86, R101, R131): the request of the phase is offered, and `TPEND` is set
in the cycle in which it is accepted; `CUR` is `A` for `RDVR` and `RDPR`. -/
def Obligations.TransactionIsOffered : Prop :=
  (∀ s : State, s.opc = 0x01#8 ∨ s.opc = 0x02#8 → s.cur = s.a) ∧
  ∀ (s : State) (r : Request), s.inputs.rst = false → s.tpend = false →
    (s.phase = .vrw ∧ r = ⟨.writeByteData, s.params.devVr, s.params.wreg, s.cur &&& 0x7F#8⟩) ∨
      (s.phase = .vrr ∧ r = ⟨.readByteData, s.params.devVr, s.params.rreg, 0x00#8⟩) ∨
      (s.phase = .prr ∧ r = ⟨.readByteData, s.params.devPr, s.cur &&& 0x7F#8, 0x00#8⟩) ∨
      (s.phase = .mxw ∧ r = ⟨.writeByte, s.params.devMux, 0x00#8, s.a⟩) →
    s.outputs.tReqValid = true ∧ s.requestPorts = r ∧
    step s = .next
      (if s.inputs.tReqReady = true then
        { s with tpend := true, record := s.record ++ [.request r], script := s.script.tail, cycle := s.cycle + 1 }
       else { s with script := s.script.tail, cycle := s.cycle + 1 })

/-- 40_virtual_register_read.md R83: phase `VRW` awaits the write's answer. -/
def Obligations.NumberWriteIsAnswered : Prop :=
  ∀ s : State, s.phase = .vrw → s.tpend = true → s.inputs.rst = false →
    let u : State := { s with script := s.script.tail, cycle := s.cycle + 1 }
    step s = .next
      (if s.inputs.tRspValid = true ∧ s.inputs.tRspErr = true then
        { u with
          fcause := .transportError, fphase := .vrw, phase := .flt, tpend := false,
          record := s.record ++ [.answer .err] }
       else if s.inputs.tRspValid = true then
        { u with phase := .dly1, dcnt := s.params.spinCount, tpend := false, record := s.record ++ [.answer .ok] }
       else u)

/-- R87 and R102: phases `VRR` and `PRR` await the read's answer and deliver the byte to the command in progress, by the
rules R89, R103, R114, R115. "No other opcode can be in `OPC`" there: of the states that meet the invariant. -/
def Obligations.ReadIsAnswered : Prop :=
  (∀ s : State, s.Inv →
    (s.phase = .vrr → s.opc = 0x01#8 ∨ s.opc = 0x04#8) ∧ (s.phase = .prr → s.opc = 0x02#8 ∨ s.opc = 0x05#8)) ∧
  ∀ s : State, s.tpend = true → s.inputs.rst = false →
    let u : State := { s with script := s.script.tail, cycle := s.cycle + 1 }
    let d := s.inputs.tRspRdata
    let got : State := { u with record := s.record ++ [.answer (.byte d)], tpend := false }
    (s.phase = .vrr ∨ s.phase = .prr →
      (s.inputs.tRspValid = true → s.inputs.tRspErr = true →
        step s = .next { u with
          fcause := .transportError, fphase := s.phase, phase := .flt, tpend := false,
          record := s.record ++ [.answer .err] }) ∧
      (s.inputs.tRspValid = false → step s = .next u)) ∧
    (s.inputs.tRspValid = true → s.inputs.tRspErr = false →
      (s.phase = .vrr → s.opc = 0x01#8 → step s = .next { got with res := 0x00#8 ++ d, phase := .rsp }) ∧
      (s.phase = .prr → s.opc = 0x02#8 → step s = .next { got with res := 0x00#8 ++ d, phase := .rsp }) ∧
      (s.phase = .vrr → s.opc = 0x04#8 → s.dstep = false →
        step s = .next { got with hi := d, dstep := true, phase := .vrw }) ∧
      (s.phase = .prr → s.opc = 0x05#8 → s.dstep = false →
        step s = .next { got with hi := d, dstep := true, phase := .prr }) ∧
      ((s.phase = .vrr ∧ s.opc = 0x04#8) ∨ (s.phase = .prr ∧ s.opc = 0x05#8) → s.dstep = true →
        step s = .next { got with res := s.hi ++ d, phase := .rsp }))

/-- 43_channel_select.md R132: phase `MXW` awaits the write's answer; `RES` is left as it was. -/
def Obligations.MaskWriteIsAnswered : Prop :=
  ∀ s : State, s.phase = .mxw → s.tpend = true → s.inputs.rst = false →
    let u : State := { s with script := s.script.tail, cycle := s.cycle + 1 }
    step s = .next
      (if s.inputs.tRspValid = true ∧ s.inputs.tRspErr = true then
        { u with
          fcause := .transportError, fphase := .mxw, phase := .flt, tpend := false,
          record := s.record ++ [.answer .err] }
       else if s.inputs.tRspValid = true then
        { u with phase := .rsp, tpend := false, record := s.record ++ [.answer .ok] }
       else u)

/-- R89, R103: the cycle in which `RDVR` or `RDPR` completes: the byte is returned as read, zero-extended. -/
def Obligations.SingleReadReturnsTheByte : Prop :=
  ∀ (s : State) (a : Byte), s.tpend = true → s.inputs.tRspValid = true → s.inputs.tRspErr = false →
    (s.phase = .vrr → exec (.rdvr a) s = .next { s with
      res := 0x00#8 ++ s.inputs.tRspRdata, phase := .rsp, tpend := false,
      record := s.record ++ [.answer (.byte s.inputs.tRspRdata)] }) ∧
    (s.phase = .prr → exec (.rdpr a) s = .next { s with
      res := 0x00#8 ++ s.inputs.tRspRdata, phase := .rsp, tpend := false,
      record := s.record ++ [.answer (.byte s.inputs.tRspRdata)] })

/-- The cycle in which `SELCH` completes (R130, R132): a response, and `RES` as it was. -/
def Obligations.SelchCompletes : Prop :=
  ∀ (s : State) (m : Byte), s.phase = .mxw → s.tpend = true → s.inputs.tRspValid = true → s.inputs.tRspErr = false →
    exec (.selch m) s = .next { s with phase := .rsp, tpend := false, record := s.record ++ [.answer .ok] }

/-- 42_pair_decode.md R115: the cycle in which `DECV` or `DECP` completes: `RES <- {HI, d}`. `DSTEP` then stays 1 until
the next acceptance, and `HI` is kept until the next first byte, or until reset. -/
def Obligations.PairReturnsBothBytes : Prop :=
  (∀ s t : State, step s = .next t → s.inputs.rst = false →
    (s.dstep = true → t.dstep = false → s.phase = .idle ∧ s.inputs.cmdValid = true) ∧
    (t.hi ≠ s.hi → s.dstep = false ∧ t.dstep = true)) ∧
  ∀ (s : State) (lo hi : Byte), s.tpend = true → s.inputs.tRspValid = true → s.inputs.tRspErr = false →
    s.dstep = true →
    (s.phase = .vrr → exec (.decv lo hi) s = .next { s with
      res := s.hi ++ s.inputs.tRspRdata, phase := .rsp, tpend := false,
      record := s.record ++ [.answer (.byte s.inputs.tRspRdata)] }) ∧
    (s.phase = .prr → exec (.decp lo hi) s = .next { s with
      res := s.hi ++ s.inputs.tRspRdata, phase := .rsp, tpend := false,
      record := s.record ++ [.answer (.byte s.inputs.tRspRdata)] })

/-- 42_pair_decode.md R114: the first byte goes to `HI`, and the sequence for the low byte starts: its
request is offered in the next cycle with `CUR` = `A`; `RES` is not written, no response is given. -/
def Obligations.PairKeepsTheFirstByte : Prop :=
  ∀ (s : State) (lo hi : Byte), s.tpend = true → s.inputs.tRspValid = true → s.inputs.tRspErr = false →
    s.dstep = false →
    (s.phase = .vrr → exec (.decv lo hi) s = .next { s with
      hi := s.inputs.tRspRdata, dstep := true, tpend := false, phase := .vrw,
      record := s.record ++ [.answer (.byte s.inputs.tRspRdata)] }) ∧
    (s.phase = .prr → exec (.decp lo hi) s = .next { s with
      hi := s.inputs.tRspRdata, dstep := true, tpend := false, phase := .prr,
      record := s.record ++ [.answer (.byte s.inputs.tRspRdata)] }) ∧
    (∀ t, s.phase = .vrr → exec (.decv lo hi) s = .next t →
      t.cur = s.a ∧ t.outputs.tReqValid = true ∧ t.outputs.respValid = false ∧
      t.requestPorts = ⟨.writeByteData, s.params.devVr, s.params.wreg, s.a &&& 0x7F#8⟩) ∧
    (∀ t, s.phase = .prr → exec (.decp lo hi) s = .next t →
      t.cur = s.a ∧ t.outputs.tReqValid = true ∧ t.outputs.respValid = false ∧
      t.requestPorts = ⟨.readByteData, s.params.devPr, s.a &&& 0x7F#8, 0x00#8⟩)

/-- 60_exceptions.md R152: one tick, which never wraps below zero. -/
def Obligations.TimerTicks : Prop :=
  ∀ s : State, s.phase = .dly1 ∨ s.phase = .dly2 → s.dcnt ≠ 0#32 → s.inputs.rst = false →
    ∃ t, step s = .next t ∧
      t = { s with dcnt := s.dcnt - 1#32, script := s.script.tail, cycle := s.cycle + 1 } ∧
      t.dcnt.toNat + 1 = s.dcnt.toNat

/-- R84, R85, R153: from `DCNT` = n a wait makes n ticks and one expiry cycle, whatever the inputs but `rst`; the first
wait is followed at once by the second, the second by the read. That `TPEND` is kept from `DLY1` to `DLY2` also where it
is 1, which no state that meets the invariant has, is the model's: DEDUCED (notes/assumptions/8.md), beside R18's "Cleared
to 0 on every change of `PHASE`". -/
def Obligations.WaitRunsItsIterations : Prop :=
  ∀ (s : State) (ins rest : List Inputs), s.script = ins ++ rest → undisturbed ins →
    s.phase = .dly1 ∨ s.phase = .dly2 →
    (ins.length ≤ s.dcnt.toNat →
      runFor ins.length s = .next { s with
        dcnt := BitVec.ofNat 32 (s.dcnt.toNat - ins.length), script := rest, cycle := s.cycle + ins.length }) ∧
    (ins.length = s.dcnt.toNat + 1 → s.phase = .dly1 →
      runFor ins.length s = .next { s with
        phase := .dly2, dcnt := s.params.spinCount, script := rest, cycle := s.cycle + ins.length }) ∧
    (ins.length = s.dcnt.toNat + 1 → s.phase = .dly2 →
      runFor ins.length s = .next { s with
        phase := .vrr, dcnt := 0#32, tpend := false, script := rest, cycle := s.cycle + ins.length })

/-- The response phase (R27): the result stands on the port until it is taken, and then the block is idle. That `TPEND` is
kept from `RSP` to `IDLE` also where it is 1, which no state that meets the invariant has, is the model's: DEDUCED
(notes/assumptions/8.md), beside R18's "Cleared to 0 on every change of `PHASE`". -/
def Obligations.ResponseIsHeldUntilTaken : Prop :=
  ∀ s : State, (s.outputs.respValid = true ↔ s.phase = .rsp) ∧ s.outputs.respData = s.res ∧
    (s.phase = .rsp → s.inputs.rst = false →
      step s = .next
        (if s.inputs.respReady = true then { s with phase := .idle, script := s.script.tail, cycle := s.cycle + 1 }
         else { s with script := s.script.tail, cycle := s.cycle + 1 }))

/-! ### Faults and outputs -/

/-- 60_exceptions.md R144: with `rst` = 0 nothing changes in `FLT`, and the outputs say so. -/
def Obligations.FaultStateHolds : Prop :=
  ∀ s : State, s.phase = .flt →
    s.outputs.cmdReady = false ∧ s.outputs.tReqValid = false ∧ s.outputs.respValid = false ∧
    s.outputs.fault = true ∧ s.outputs.busy = true ∧
    (s.inputs.rst = false → step s = .next { s with script := s.script.tail, cycle := s.cycle + 1 })

/-- 60_exceptions.md R143: every entry into `FLT` records the cause and the phase and writes nothing else but, for an
illegal command, the latches of the accepted word. -/
def Obligations.FaultEntryRecordsCauseAndPhase : Prop :=
  ∀ s t : State, s.inputs.rst = false → s.phase ≠ .flt → step s = .next t → t.phase = .flt →
    (s.phase = .idle ∧ t = { s with
        opc := s.inputs.cmdWord.extractLsb' 16 8, b := s.inputs.cmdWord.extractLsb' 8 8,
        a := s.inputs.cmdWord.extractLsb' 0 8, dstep := false,
        fcause := .illegalCommand, fphase := .idle, phase := .flt, tpend := false,
        script := s.script.tail, cycle := s.cycle + 1 } ∨
      s.phase.isTransaction = true ∧ t = { s with
        fcause := .transportError, fphase := s.phase, phase := .flt, tpend := false,
        record := s.record ++ [.answer .err], script := s.script.tail, cycle := s.cycle + 1 }) ∧
    t.outputs.fault = true ∧ t.outputs.busy = true ∧ t.outputs.fcause = t.fcause.code ∧
    t.outputs.fphase = s.phase.code ∧ t.outputs.respValid = false

/-- The status outputs (R22, R25, R26) and their numbers (R16, R20). -/
def Obligations.StatusOutputsFollowThePhase : Prop :=
  (∀ s : State, (s.outputs.busy = true ↔ s.phase ≠ .idle) ∧ (s.outputs.fault = true ↔ s.phase = .flt) ∧
    (s.outputs.cmdReady = true ↔ s.phase = .idle) ∧ (s.outputs.fault = true → s.outputs.busy = true) ∧
    s.outputs.fcause = s.fcause.code ∧ s.outputs.fphase = s.fphase.code) ∧
  [Phase.idle, .vrw, .dly1, .dly2, .vrr, .prr, .mxw, .rsp, .flt].map (fun p => p.code.toNat) =
    [0, 1, 2, 3, 4, 5, 6, 7, 15] ∧
  [Cause.none, .transportError, .illegalCommand].map (fun c => c.code.toNat) = [0, 1, 2]

/-- 10_state.md R28: the request outputs by phase, steady while offered, and when a request is accepted. -/
def Obligations.RequestPortsFollowTheTable : Prop :=
  ∀ s : State,
    (s.outputs.tReqValid = true ↔ (s.phase = .vrw ∨ s.phase = .vrr ∨ s.phase = .prr ∨ s.phase = .mxw) ∧ s.tpend = false) ∧
    (let o := s.outputs
     (o.tReqKind, o.tReqDev, o.tReqReg, o.tReqWdata) =
      match s.phase with
      | .vrw => (1#2, s.params.devVr, s.params.wreg, s.cur &&& 0x7F#8)
      | .vrr => (3#2, s.params.devVr, s.params.rreg, 0x00#8)
      | .prr => (3#2, s.params.devPr, s.cur &&& 0x7F#8, 0x00#8)
      | .mxw => (0#2, s.params.devMux, 0x00#8, s.a)
      | _ => (0#2, 0#7, 0x00#8, 0x00#8)) ∧
    (∀ t, s.outputs.tReqValid = true → s.inputs.rst = false → s.inputs.tReqReady = false → step s = .next t →
      t.outputs.tReqValid = true ∧ t.requestPorts = s.requestPorts) ∧
    (∀ t, step s = .next t →
      ((∃ r, t.record = s.record ++ [.request r]) ↔
        s.outputs.tReqValid = true ∧ s.inputs.tReqReady = true ∧ s.inputs.rst = false))

/-- 10_state.md R29. -/
def Obligations.CurrentAddressOfTheRead : Prop :=
  ∀ s : State,
    ((s.opc = 0x04#8 ∨ s.opc = 0x05#8) ∧ s.dstep = false → s.cur = s.b) ∧
    (¬((s.opc = 0x04#8 ∨ s.opc = 0x05#8) ∧ s.dstep = false) → s.cur = s.a)

/-! ### The combiner -/

/-- 42_pair_decode.md R110. -/
def Obligations.CombinerJoinsTheBytes : Prop :=
  ∀ hi lo : Byte,
    combine hi lo = hi ++ lo ∧ (combine hi lo).toNat = 256 * hi.toNat + lo.toNat ∧
    decodeValue hi lo = signed16 (combine hi lo) ∧
    (hi.toNat < 0x80 → decodeValue hi lo = 256 * hi.toNat + lo.toNat) ∧
    (0x80 ≤ hi.toNat → decodeValue hi lo = 256 * (hi.toNat : Int) + lo.toNat - 65536) ∧
    (decodeValue hi lo < 0 ↔ hi.msb = true)

/-- 42_pair_decode.md R119, (a) to (f). -/
def Obligations.CombinerLaws : Prop :=
  (∀ hi lo : Byte, (combine hi lo).extractLsb' 8 8 = hi ∧ (combine hi lo).extractLsb' 0 8 = lo) ∧
  (∀ s : Int, -32768 ≤ s → s ≤ 32767 →
    let w : Half := BitVec.ofInt 16 s
    decodeValue (w.extractLsb' 8 8) (w.extractLsb' 0 8) = s) ∧
  (decodeValue 0x00#8 0x00#8 = 0 ∧ decodeValue 0x7F#8 0xFF#8 = 32767 ∧ decodeValue 0xFF#8 0xFF#8 = -1 ∧
    decodeValue 0x80#8 0x00#8 = -32768) ∧
  (∀ s : Int, -32768 ≤ s → s ≤ 32767 → ∃! p : Byte × Byte, decodeValue p.1 p.2 = s) ∧
  (∀ hi lo : Byte, -32768 ≤ decodeValue hi lo ∧ decodeValue hi lo ≤ 32767) ∧
  (∀ hi lo : Byte, decodeValue hi lo < 0 ↔ 0x80 ≤ hi.toNat) ∧
  (decodeValue 0x01#8 0x00#8 = 256 ∧ decodeValue 0x00#8 0x01#8 = 1)

/-- R116: a host that widens a response must sign-extend from bit 15; then it reads the sample. -/
def Obligations.SignExtensionKeepsTheSample : Prop :=
  ∀ (n : Nat) (w : Half), 16 ≤ n → (w.signExtend n).toInt = signed16 w

/-! ### Encoding -/

/-- Words written out from R60 and R62 (vectors E1 to E14 of 95_test_vectors.md) and what they decode to. -/
def Obligations.SampleWordsDecode : Prop :=
  decode 0x0100FF#24 = some (.rdvr 0xFF#8) ∧ decode 0x020032#24 = some (.rdpr 0x32#8) ∧
  decode 0x030004#24 = some (.selch 0x04#8) ∧ decode 0x040908#24 = some (.decv 0x08#8 0x09#8) ∧
  decode 0x053332#24 = some (.decp 0x32#8 0x33#8) ∧ decode 0x000000#24 = none ∧ decode 0x010105#24 = none

/-- R65: a word is illegal exactly when its opcode is none of the five, or its reserved byte is not zero. -/
def Obligations.IllegalWordsExactly : Prop :=
  ∀ w : CmdWord,
    decode w = none ↔
      (w.extractLsb' 16 8).toNat = 0 ∨ 6 ≤ (w.extractLsb' 16 8).toNat ∨
      ((w.extractLsb' 16 8).toNat ≤ 3 ∧ w.extractLsb' 8 8 ≠ 0x00#8)

/-- Every command, with every value of its operands, is read back from its word. -/
def Obligations.DecodeReadsEveryEncoding : Prop :=
  ∀ i : Instr, i.wellFormed = true → decode (encode i) = some i

/-- Every legal word is the encoding of the command it decodes to: no two words are one command. -/
def Obligations.EncodeWritesEveryLegalWord : Prop :=
  ∀ (w : CmdWord) (i : Instr), decode w = some i → encode i = w

/-- R62: "The rows are disjoint." -/
def Obligations.OpcodeRowsAreDisjoint : Prop :=
  ∀ (w : CmdWord) (r q : OpRow), r ∈ opcodeMap → q ∈ opcodeMap →
    w &&& r.mask = r.pattern → w &&& q.mask = q.pattern → r = q

/-- The words of R67's table, as numbers. -/
def Obligations.WordsOfTheSyntax : Prop :=
  ∀ x y : Byte,
    (encode (.rdvr x)).toNat = 0x010000 + x.toNat ∧ (encode (.rdpr x)).toNat = 0x020000 + x.toNat ∧
    (encode (.selch x)).toNat = 0x030000 + x.toNat ∧
    (encode (.decv x y)).toNat = 0x040000 + 256 * y.toNat + x.toNat ∧
    (encode (.decp x y)).toNat = 0x050000 + 256 * y.toNat + x.toNat

/-- R63 (a), R82, R104: of a Register Address only bits 6 to 0 reach the bus; R63 (b), R133: the mask goes out whole. -/
def Obligations.AddressBitSevenIsDropped : Prop :=
  (∀ x : Byte, (transmitted x).toNat = x.toNat % 128) ∧
  (∀ (s : State) (x y : Byte), s.phase ≠ .mxw → x.toNat % 128 = s.a.toNat % 128 → y.toNat % 128 = s.b.toNat % 128 →
    { s with a := x, b := y }.drivenRequest = s.drivenRequest) ∧
  (∀ (s : State) (r : Request), s.phase = .vrw → s.drivenRequest = some r → r.wdata.toNat < 128) ∧
  (∀ (s : State) (r : Request), s.phase = .prr → s.drivenRequest = some r → r.reg.toNat < 128) ∧
  (∀ (s : State) (r : Request), s.phase = .mxw → s.drivenRequest = some r → r.wdata = s.a)

/-! ### The invariant and the transition table -/

/-- The invariant holds at reset. -/
def Obligations.ResetMeetsTheInvariant : Prop := State.reset.Inv

/-- Every step keeps the invariant, from every state that meets it. -/
def Obligations.StepKeepsTheInvariant : Prop := ∀ s t : State, s.Inv → step s = .next t → t.Inv

/-- R7, R87, R102: from a state that meets the invariant every cycle goes on: no fault outcome, no refusal. -/
def Obligations.InvariantNeverStops : Prop := ∀ s : State, s.Inv → ∃ t, step s = .next t

/-- R34: with `rst` = 0 a step is a row of the transition table and a row of the table is a step. As in the table, the rows
from `DLY1` to `DLY2` and from `RSP` to `IDLE` do not write `TPEND`; R18 says "Cleared to 0 on every change of `PHASE`". That
the row stands where `TPEND` is 1, in no state that meets the invariant, is the model's: DEDUCED (notes/assumptions/8.md). -/
def Obligations.StepIsTheTransitionTable : Prop :=
  ∀ s t : State, s.inputs.rst = false →
    (step s = .next t ↔ ∃ u, TableRow s u ∧ t = { u with script := s.script.tail, cycle := s.cycle + 1 })

/-! ### Whole commands -/

/-- `RDVR` from its acceptance to its response (R80, R91, R184): whatever the transport's delays, after
`1 + T_1 + 2(S + 1) + T_2` cycles the byte stands in `RES`, exactly one write and one read were made, in that order, and
nothing else has changed. -/
def Obligations.RdvrRunsToItsResponse : Prop :=
  ∀ (s : State) (a d : Byte) (x : Inputs) (write wait read rest : List Inputs),
    s.phase = .idle → s.script = x :: (write ++ (wait ++ (read ++ rest))) → x.offers (encode (.rdvr a)) →
    (∃ e, transacts false e write) → waitsTwice s.params wait → transacts false d read →
    let n := 1 + write.length + 2 * (s.params.spinCount.toNat + 1) + read.length
    runFor n s = .next { s with
      phase := .rsp, tpend := false, dstep := false, dcnt := 0#32, opc := 0x01#8, a := a, b := 0x00#8,
      res := 0x00#8 ++ d, script := rest, cycle := s.cycle + n,
      record := s.record ++ virtualEvents s.params a d }

/-- `RDPR` from its acceptance to its response (R100, R184): `1 + T_1` cycles, one read. -/
def Obligations.RdprRunsToItsResponse : Prop :=
  ∀ (s : State) (a d : Byte) (x : Inputs) (read rest : List Inputs),
    s.phase = .idle → s.script = x :: (read ++ rest) → x.offers (encode (.rdpr a)) → transacts false d read →
    let n := 1 + read.length
    runFor n s = .next { s with
      phase := .rsp, tpend := false, dstep := false, opc := 0x02#8, a := a, b := 0x00#8,
      res := 0x00#8 ++ d, script := rest, cycle := s.cycle + n,
      record := s.record ++ directEvents s.params a d }

/-- `SELCH` from its acceptance to its response (R130, R184): `1 + T_1` cycles, the mask written whole, `RES` unchanged. -/
def Obligations.SelchRunsToItsResponse : Prop :=
  ∀ (s : State) (m e : Byte) (x : Inputs) (write rest : List Inputs),
    s.phase = .idle → s.script = x :: (write ++ rest) → x.offers (encode (.selch m)) → transacts false e write →
    let n := 1 + write.length
    runFor n s = .next { s with
      phase := .rsp, tpend := false, dstep := false, opc := 0x03#8, a := m, b := 0x00#8,
      script := rest, cycle := s.cycle + n, record := s.record ++ selectEvents s.params m }

/-- `DECV` from its acceptance to its response (R111, R113, R184): the sequence for the high address, then for the low
one, `RES` = `{h, l}`. -/
def Obligations.DecvRunsToItsResponse : Prop :=
  ∀ (s : State) (lo hi h l : Byte) (x : Inputs) (write₁ wait₁ read₁ write₂ wait₂ read₂ rest : List Inputs),
    s.phase = .idle →
    s.script = x :: (write₁ ++ (wait₁ ++ (read₁ ++ (write₂ ++ (wait₂ ++ (read₂ ++ rest)))))) →
    x.offers (encode (.decv lo hi)) →
    (∃ e, transacts false e write₁) → waitsTwice s.params wait₁ → transacts false h read₁ →
    (∃ e, transacts false e write₂) → waitsTwice s.params wait₂ → transacts false l read₂ →
    let n := 1 + write₁.length + read₁.length + write₂.length + read₂.length + 4 * (s.params.spinCount.toNat + 1)
    runFor n s = .next { s with
      phase := .rsp, tpend := false, dstep := true, dcnt := 0#32, opc := 0x04#8, a := lo, b := hi, hi := h,
      res := h ++ l, script := rest, cycle := s.cycle + n,
      record := s.record ++ virtualEvents s.params hi h ++ virtualEvents s.params lo l }

/-- `DECP` from its acceptance to its response (R112, R113, R184): the high address is read first. -/
def Obligations.DecpRunsToItsResponse : Prop :=
  ∀ (s : State) (lo hi h l : Byte) (x : Inputs) (read₁ read₂ rest : List Inputs),
    s.phase = .idle → s.script = x :: (read₁ ++ (read₂ ++ rest)) → x.offers (encode (.decp lo hi)) →
    transacts false h read₁ → transacts false l read₂ →
    let n := 1 + read₁.length + read₂.length
    runFor n s = .next { s with
      phase := .rsp, tpend := false, dstep := true, opc := 0x05#8, a := lo, b := hi, hi := h,
      res := h ++ l, script := rest, cycle := s.cycle + n,
      record := s.record ++ directEvents s.params hi h ++ directEvents s.params lo l }

/-- A failed transaction ends a pair decode where it happens (R121, R141), in each of R121's six cases: `DECP` at read 1 and
2, `DECV` at transaction 1, 2, 3 and 4. `FPHASE` is the failing phase, `RES` is not written, a first byte delivered stays in
`HI`, and nothing more is asked of the bus. -/
def Obligations.FailedTransactionEndsThePair : Prop :=
  (∀ (s : State) (lo hi e : Byte) (x : Inputs) (read₁ rest : List Inputs),
    s.phase = .idle → s.script = x :: (read₁ ++ rest) → x.offers (encode (.decp lo hi)) → transacts true e read₁ →
    let n := 1 + read₁.length
    runFor n s = .next { s with
      phase := .flt, fcause := .transportError, fphase := .prr, tpend := false, dstep := false,
      opc := 0x05#8, a := lo, b := hi, script := rest, cycle := s.cycle + n,
      record := s.record ++ failedDirectRead s.params hi }) ∧
  (∀ (s : State) (lo hi h e : Byte) (x : Inputs) (read₁ read₂ rest : List Inputs),
    s.phase = .idle → s.script = x :: (read₁ ++ (read₂ ++ rest)) → x.offers (encode (.decp lo hi)) →
    transacts false h read₁ → transacts true e read₂ →
    let n := 1 + read₁.length + read₂.length
    runFor n s = .next { s with
      phase := .flt, fcause := .transportError, fphase := .prr, tpend := false, dstep := true,
      opc := 0x05#8, a := lo, b := hi, hi := h, script := rest, cycle := s.cycle + n,
      record := s.record ++ directEvents s.params hi h ++ failedDirectRead s.params lo }) ∧
  (∀ (s : State) (lo hi e : Byte) (x : Inputs) (write₁ rest : List Inputs),
    s.phase = .idle → s.script = x :: (write₁ ++ rest) → x.offers (encode (.decv lo hi)) → transacts true e write₁ →
    let n := 1 + write₁.length
    runFor n s = .next { s with
      phase := .flt, fcause := .transportError, fphase := .vrw, tpend := false, dstep := false,
      opc := 0x04#8, a := lo, b := hi, script := rest, cycle := s.cycle + n,
      record := s.record ++ failedNumberWrite s.params hi }) ∧
  (∀ (s : State) (lo hi e : Byte) (x : Inputs) (write₁ wait read₁ rest : List Inputs),
    s.phase = .idle → s.script = x :: (write₁ ++ (wait ++ (read₁ ++ rest))) → x.offers (encode (.decv lo hi)) →
    (∃ e, transacts false e write₁) → waitsTwice s.params wait → transacts true e read₁ →
    let n := 1 + write₁.length + 2 * (s.params.spinCount.toNat + 1) + read₁.length
    runFor n s = .next { s with
      phase := .flt, fcause := .transportError, fphase := .vrr, tpend := false, dstep := false, dcnt := 0#32,
      opc := 0x04#8, a := lo, b := hi, script := rest, cycle := s.cycle + n,
      record := s.record ++ failedVirtualRead s.params hi }) ∧
  (∀ (s : State) (lo hi h e : Byte) (x : Inputs) (write₁ wait read₁ write₂ rest : List Inputs),
    s.phase = .idle → s.script = x :: (write₁ ++ (wait ++ (read₁ ++ (write₂ ++ rest)))) →
    x.offers (encode (.decv lo hi)) →
    (∃ e, transacts false e write₁) → waitsTwice s.params wait → transacts false h read₁ → transacts true e write₂ →
    let n := 1 + write₁.length + 2 * (s.params.spinCount.toNat + 1) + read₁.length + write₂.length
    runFor n s = .next { s with
      phase := .flt, fcause := .transportError, fphase := .vrw, tpend := false, dstep := true, dcnt := 0#32,
      opc := 0x04#8, a := lo, b := hi, hi := h, script := rest, cycle := s.cycle + n,
      record := s.record ++ virtualEvents s.params hi h ++ failedNumberWrite s.params lo }) ∧
  (∀ (s : State) (lo hi h e : Byte) (x : Inputs) (write₁ wait₁ read₁ write₂ wait₂ read₂ rest : List Inputs),
    s.phase = .idle →
    s.script = x :: (write₁ ++ (wait₁ ++ (read₁ ++ (write₂ ++ (wait₂ ++ (read₂ ++ rest)))))) →
    x.offers (encode (.decv lo hi)) →
    (∃ e, transacts false e write₁) → waitsTwice s.params wait₁ → transacts false h read₁ →
    (∃ e, transacts false e write₂) → waitsTwice s.params wait₂ → transacts true e read₂ →
    let n := 1 + write₁.length + read₁.length + write₂.length + read₂.length + 4 * (s.params.spinCount.toNat + 1)
    runFor n s = .next { s with
      phase := .flt, fcause := .transportError, fphase := .vrr, tpend := false, dstep := true, dcnt := 0#32,
      opc := 0x04#8, a := lo, b := hi, hi := h, script := rest, cycle := s.cycle + n,
      record := s.record ++ virtualEvents s.params hi h ++ failedVirtualRead s.params lo })

/-- R182: a transport that never accepts or never answers, and a host that never takes the response, hold the block where
it is for any number of cycles: no time-out, no fault. -/
def Obligations.HangsAreKept : Prop :=
  ∀ (s : State) (ins rest : List Inputs), s.script = ins ++ rest → undisturbed ins →
    (s.phase.isTransaction = true ∧ s.tpend = false ∧ (∀ i ∈ ins, i.tReqReady = false)) ∨
      (s.phase.isTransaction = true ∧ s.tpend = true ∧ (∀ i ∈ ins, i.tRspValid = false)) ∨
      (s.phase = .rsp ∧ (∀ i ∈ ins, i.respReady = false)) →
    runFor ins.length s = .next { s with script := rest, cycle := s.cycle + ins.length }

/-! ### Rules of the whole machine -/

/-- 10_state.md R30: what the block looks at in a cycle decides the cycle; the other pins have no effect. -/
def Obligations.IgnoredInputsDoNotMatter : Prop :=
  ∀ (s : State) (x y : Inputs) (rest : List Inputs), s.looksAt x = s.looksAt y →
    step { s with script := x :: rest } = step { s with script := y :: rest }

/-- R11 to R13, R17: the latches change only at an acceptance or reset; `DSTEP` also when the high byte is delivered. -/
def Obligations.LatchesChangeOnlyAtAcceptance : Prop :=
  ∀ s t : State, step s = .next t → s.inputs.rst = false →
    (t.opc ≠ s.opc ∨ t.a ≠ s.a ∨ t.b ≠ s.b → s.phase = .idle ∧ s.inputs.cmdValid = true) ∧
    (t.dstep ≠ s.dstep →
      (t.dstep = false ∧ s.phase = .idle ∧ s.inputs.cmdValid = true) ∨
      (t.dstep = true ∧ s.tpend = true ∧ s.answerOk ∧
        ((s.phase = .vrr ∧ s.opc = 0x04#8) ∨ (s.phase = .prr ∧ s.opc = 0x05#8)) ∧ t.hi = s.inputs.tRspRdata))

/-- 10_state.md R18: `TPEND` is 0 after every change of `PHASE`, reset included, in states that meet the invariant; it is set
by the acceptance of an offered request only; in a transaction phase it tells offering from awaiting; and between a request
and its answer nothing changes. -/
def Obligations.PendingIsClearedOnPhaseChange : Prop :=
  (∀ s t : State, s.Inv → step s = .next t → t.phase ≠ s.phase → t.tpend = false) ∧
  (∀ s t : State, step s = .next t → s.tpend = false → t.tpend = true →
    s.phase.isTransaction = true ∧ s.inputs.rst = false ∧ s.inputs.tReqReady = true ∧ t.phase = s.phase) ∧
  (∀ s : State, s.phase.isTransaction = true →
    (s.tpend = false → s.outputs.tReqValid = true) ∧
    (s.tpend = true → s.outputs.tReqValid = false ∧
      (s.inputs.rst = false → s.inputs.tRspValid = false →
        step s = .next { s with script := s.script.tail, cycle := s.cycle + 1 })))

/-- R14, R15: without reset `HI` is written only by the delivery of a pair's first byte, `RES` only by the last answer of
a read command, which completes it. -/
def Obligations.ResultsChangeOnlyAtDelivery : Prop :=
  ∀ s t : State, step s = .next t → s.inputs.rst = false →
    (t.hi ≠ s.hi →
      s.tpend = true ∧ s.answerOk ∧ s.dstep = false ∧ t.dstep = true ∧ t.hi = s.inputs.tRspRdata ∧
      ((s.phase = .vrr ∧ s.opc = 0x04#8) ∨ (s.phase = .prr ∧ s.opc = 0x05#8))) ∧
    (t.res ≠ s.res →
      s.tpend = true ∧ s.answerOk ∧ t.phase = .rsp ∧ (s.phase = .vrr ∨ s.phase = .prr) ∧
      t.res.extractLsb' 0 8 = s.inputs.tRspRdata)

/-- R19, R20, R21: without reset `DCNT` changes only in the waits and on the two loads, and the fault record only at the
entry into `FLT`, once. -/
def Obligations.TimerAndFaultRecordChange : Prop :=
  ∀ s t : State, step s = .next t → s.inputs.rst = false →
    (t.dcnt ≠ s.dcnt →
      (s.phase = .vrw ∧ t.phase = .dly1 ∧ t.dcnt = s.params.spinCount) ∨
      (s.phase = .dly1 ∧ t.phase = .dly2 ∧ t.dcnt = s.params.spinCount) ∨
      ((s.phase = .dly1 ∨ s.phase = .dly2) ∧ t.phase = s.phase ∧ t.dcnt = s.dcnt - 1#32)) ∧
    (t.fcause ≠ s.fcause ∨ t.fphase ≠ s.fphase → s.phase ≠ .flt ∧ t.phase = .flt ∧ t.fphase = s.phase)

/-- R4, R23: the parameters are constants: no step writes one, reset included. -/
def Obligations.ParametersNeverChange : Prop := ∀ s t : State, step s = .next t → t.params = s.params

/-- R46, R55: a cycle adds at most one event to the record, a request only with none pending, an answer only to a pending
one; and a request is one of those R40 lists. -/
def Obligations.RecordGrowsByOneEvent : Prop :=
  ∀ s t : State, step s = .next t →
    t.record = s.record ∨
    (∃ r, t.record = s.record ++ [.request r] ∧ s.tpend = false ∧ t.tpend = true ∧ s.inputs.tReqReady = true ∧
      ((r.kind = .writeByteData ∧ r.dev = s.params.devVr ∧ r.reg = s.params.wreg ∧ r.wdata.toNat < 128) ∨
       (r.kind = .readByteData ∧ r.dev = s.params.devVr ∧ r.reg = s.params.rreg) ∨
       (r.kind = .readByteData ∧ r.dev = s.params.devPr ∧ r.reg.toNat < 128) ∨
       (r.kind = .writeByte ∧ r.dev = s.params.devMux))) ∨
    (∃ x, t.record = s.record ++ [.answer x] ∧ s.tpend = true ∧ t.tpend = false ∧ s.inputs.tRspValid = true ∧
      (x = .err ↔ s.inputs.tRspErr = true) ∧ (∀ d, x = .byte d → d = s.inputs.tRspRdata))

/-- R134, R178: a completed `SELCH m` puts the mask in force in the host's view, and it stays in force through every cycle
without reset (R173), without the host's own use of the transport (R180) and without a failure (U18), but those of another
`SELCH`'s transaction and, where `DEV_MUX = DEV_VR` (the model's choice, notes/assumptions/9.md), those of `VRW`. The answer is taken as the `SELCH`'s own, the model's choice after
a reset taken with `TPEND` = 1 (notes/assumptions/17.md): of the multiplexer it says so under R171's duty to wait. -/
def Obligations.SelectionLastsUntilTheNextSelch : Prop :=
  (∀ (p : Params) (h : List Event) (m : Byte), (selectorAfter p (h ++ selectEvents p m)).selects m = true) ∧
  (∀ (s t : State) (v : Selector) (m : Byte), step s = .next t → s.inputs.rst = false →
    ¬(s.tpend = true ∧ s.answerError) → s.phase ≠ .mxw → (s.phase = .vrw → s.params.devVr ≠ s.params.devMux) →
    v.selects m = true → (v.track s t false).selects m = true)

/-- R178, the host's view at work: where it says that `m` is in force, a `SELCH m` has completed since it began to look, and
every event since leaves the selector: no other write to the multiplexer's address (R178, R136 f) and no failure (U18). The
last cycle, if there was one, was no cycle of reset (R173) and none in which the host used the transport itself (R180). The success of the `SELCH` in the record is the answer the block took
for it; after a reset taken with `TPEND` = 1 that it is no orphan's is R171's duty of the host and not claimed, the model's
choice (U13, notes/assumptions/17.md). -/
def Obligations.SelectionIsThePremiseOfDirectReads : Prop :=
  (∀ (uses : List Bool) (s t : State) (w : Selector) (m : Byte), follow uses s .unknown = some (t, w) →
    w.selects m = true →
    ∃ before since : List Event, t.record = s.record ++ before ++ selectEvents s.params m ++ since ∧
      ∀ e ∈ since, e.leavesSelector s.params = true) ∧
  (∀ (s t : State) (v : Selector) (m : Byte) (uses : Bool), step s = .next t →
    (v.track s t uses).selects m = true →
    s.inputs.rst = false ∧ uses = false ∧ ¬(s.phase.isTransaction = true ∧ s.tpend = true ∧ s.answerError))

/-- R53, R54 (a test fixture, no claim about any chip): had the reference devices answered, the byte a virtual-register
read returns is that virtual register's, and the byte a direct read returns after a `SELCH` is the selected device's. -/
def Obligations.ReferenceDevicesReturnTheirBytes : Prop :=
  (∀ (p : Params) (f g : Fixture) (a d : Byte), f.replay p (virtualEvents p a d) = some g →
    d = f.virtualByte (a.setWidth 7) ∧ g.ptr = a.setWidth 7) ∧
  (∀ (p : Params) (f g : Fixture) (k : Fin nchan) (a d : Byte), p.devPr ≠ p.devVr →
    f.replay p (selectEvents p (channelMask k) ++ directEvents p a d) = some g →
    d = f.physicalByte k (a.setWidth 7) ∧ g.muxsel = channelMask k)

/-! ### Frames -/

/-- `RDVR` (R80, "State written", "State not written"): what one cycle of it leaves unchanged, and the only requests it
makes: the write of `a & 0x7F` to `(DEV_VR, WREG)` and the read of `(DEV_VR, RREG)`. -/
def Obligations.RdvrFrame : Prop :=
  ∀ (s t : State) (a : Byte), s.meets (.rdvr a) → exec (.rdvr a) s = .next t →
    t.hi = s.hi ∧ t.params = s.params ∧ t.script = s.script ∧ t.cycle = s.cycle ∧
    (s.phase ≠ .idle → t.opc = s.opc ∧ t.a = s.a ∧ t.b = s.b ∧ t.dstep = s.dstep) ∧
    (s.phase ≠ .vrr → t.res = s.res) ∧
    (s.phase ≠ .vrw → s.phase ≠ .dly1 → s.phase ≠ .dly2 → t.dcnt = s.dcnt) ∧
    (t.phase ≠ .flt → t.fcause = s.fcause ∧ t.fphase = s.fphase) ∧
    (t.record = s.record ∨
      (s.phase = .vrw ∧
        t.record = s.record ++ [.request ⟨.writeByteData, s.params.devVr, s.params.wreg, a &&& 0x7F#8⟩]) ∨
      (s.phase = .vrr ∧ t.record = s.record ++ [.request ⟨.readByteData, s.params.devVr, s.params.rreg, 0x00#8⟩]) ∨
      (s.tpend = true ∧ ∃ x, t.record = s.record ++ [.answer x]))

/-- `RDPR` (R100): no wait, so `DCNT` is kept too; the only request is the read of `(DEV_PR, a & 0x7F)`. -/
def Obligations.RdprFrame : Prop :=
  ∀ (s t : State) (a : Byte), s.meets (.rdpr a) → exec (.rdpr a) s = .next t →
    t.hi = s.hi ∧ t.dcnt = s.dcnt ∧ t.params = s.params ∧ t.script = s.script ∧ t.cycle = s.cycle ∧
    (s.phase ≠ .idle → t.opc = s.opc ∧ t.a = s.a ∧ t.b = s.b ∧ t.dstep = s.dstep) ∧
    (s.phase ≠ .prr → t.res = s.res) ∧
    (t.phase ≠ .flt → t.fcause = s.fcause ∧ t.fphase = s.fphase) ∧
    (t.record = s.record ∨
      (s.phase = .prr ∧ t.record = s.record ++ [.request ⟨.readByteData, s.params.devPr, a &&& 0x7F#8, 0x00#8⟩]) ∨
      (s.tpend = true ∧ ∃ x, t.record = s.record ++ [.answer x]))

/-- `SELCH` (R130): `HI`, `RES`, `DCNT` are kept; the only request is the write of the whole mask to `(DEV_MUX)`. -/
def Obligations.SelchFrame : Prop :=
  ∀ (s t : State) (m : Byte), s.meets (.selch m) → exec (.selch m) s = .next t →
    t.hi = s.hi ∧ t.res = s.res ∧ t.dcnt = s.dcnt ∧ t.params = s.params ∧ t.script = s.script ∧ t.cycle = s.cycle ∧
    (s.phase ≠ .idle → t.opc = s.opc ∧ t.a = s.a ∧ t.b = s.b ∧ t.dstep = s.dstep) ∧
    (t.phase ≠ .flt → t.fcause = s.fcause ∧ t.fphase = s.fphase) ∧
    (t.record = s.record ∨
      (s.phase = .mxw ∧ t.record = s.record ++ [.request ⟨.writeByte, s.params.devMux, 0x00#8, m⟩]) ∨
      (s.tpend = true ∧ ∃ x, t.record = s.record ++ [.answer x]))

/-- `DECV` (R111): as `RDVR`, with `HI` and `DSTEP` written in `VRR` only, and the write's payload the high address in the
first half, the low one in the second. -/
def Obligations.DecvFrame : Prop :=
  ∀ (s t : State) (lo hi : Byte), s.meets (.decv lo hi) → exec (.decv lo hi) s = .next t →
    t.params = s.params ∧ t.script = s.script ∧ t.cycle = s.cycle ∧
    (s.phase ≠ .idle → t.opc = s.opc ∧ t.a = s.a ∧ t.b = s.b) ∧
    (s.phase ≠ .idle → s.phase ≠ .vrr → t.dstep = s.dstep) ∧
    (s.phase ≠ .vrr ∨ s.dstep = true → t.hi = s.hi) ∧
    (s.phase ≠ .vrr ∨ s.dstep = false → t.res = s.res) ∧
    (s.phase ≠ .vrw → s.phase ≠ .dly1 → s.phase ≠ .dly2 → t.dcnt = s.dcnt) ∧
    (t.phase ≠ .flt → t.fcause = s.fcause ∧ t.fphase = s.fphase) ∧
    (t.record = s.record ∨
      (s.phase = .vrw ∧ t.record = s.record ++
        [.request ⟨.writeByteData, s.params.devVr, s.params.wreg, (if s.dstep then lo else hi) &&& 0x7F#8⟩]) ∨
      (s.phase = .vrr ∧ t.record = s.record ++ [.request ⟨.readByteData, s.params.devVr, s.params.rreg, 0x00#8⟩]) ∨
      (s.tpend = true ∧ ∃ x, t.record = s.record ++ [.answer x]))

/-- `DECP` (R112): as `DECV` by direct reads; `DCNT` is kept. -/
def Obligations.DecpFrame : Prop :=
  ∀ (s t : State) (lo hi : Byte), s.meets (.decp lo hi) → exec (.decp lo hi) s = .next t →
    t.dcnt = s.dcnt ∧ t.params = s.params ∧ t.script = s.script ∧ t.cycle = s.cycle ∧
    (s.phase ≠ .idle → t.opc = s.opc ∧ t.a = s.a ∧ t.b = s.b) ∧
    (s.phase ≠ .idle → s.phase ≠ .prr → t.dstep = s.dstep) ∧
    (s.phase ≠ .prr ∨ s.dstep = true → t.hi = s.hi) ∧
    (s.phase ≠ .prr ∨ s.dstep = false → t.res = s.res) ∧
    (t.phase ≠ .flt → t.fcause = s.fcause ∧ t.fphase = s.fphase) ∧
    (t.record = s.record ∨
      (s.phase = .prr ∧ t.record = s.record ++
        [.request ⟨.readByteData, s.params.devPr, (if s.dstep then lo else hi) &&& 0x7F#8, 0x00#8⟩]) ∨
      (s.tpend = true ∧ ∃ x, t.record = s.record ++ [.answer x]))
end

