-- ==== Sys2Proof/Laws/Encoding.lean ====
section
/-! SUPPORT. The fields of a packed word, and what the masks of the opcode map see of them. -/

namespace Sys2Proof

/-- A byte is a numeral the syntax admits (R67). -/
theorem byte_le (a : Byte) : a.toNat ≤ 255 := by have := a.isLt; omega

/-- A word as a number (R60). -/
theorem packWord_toNat (opc b a : Byte) :
    (packWord opc b a).toNat = opc.toNat * 65536 + b.toNat * 256 + a.toNat := by
  have hb := b.isLt
  have ha := a.isLt
  unfold packWord
  rw [BitVec.toNat_append, BitVec.toNat_append, ← Nat.shiftLeft_add_eq_or_of_lt hb,
    ← Nat.shiftLeft_add_eq_or_of_lt ha, Nat.shiftLeft_eq, Nat.shiftLeft_eq]
  omega

@[simp] theorem opcField_packWord (opc b a : Byte) : opcField (packWord opc b a) = opc := by
  have hb := b.isLt
  have ha := a.isLt
  have ho := opc.isLt
  apply BitVec.eq_of_toNat_eq
  simp only [opcField, BitVec.extractLsb'_toNat, packWord_toNat, Nat.shiftRight_eq_div_pow]
  omega

@[simp] theorem bField_packWord (opc b a : Byte) : bField (packWord opc b a) = b := by
  have hb := b.isLt
  have ha := a.isLt
  apply BitVec.eq_of_toNat_eq
  simp only [bField, BitVec.extractLsb'_toNat, packWord_toNat, Nat.shiftRight_eq_div_pow]
  omega

@[simp] theorem aField_packWord (opc b a : Byte) : aField (packWord opc b a) = a := by
  have ha := a.isLt
  apply BitVec.eq_of_toNat_eq
  simp only [aField, BitVec.extractLsb'_toNat, packWord_toNat, Nat.shiftRight_eq_div_pow]
  omega

/-- A word is its three fields (R60). -/
theorem packWord_fields (w : CmdWord) : packWord (opcField w) (bField w) (aField w) = w := by
  have hw := w.isLt
  apply BitVec.eq_of_toNat_eq
  simp only [packWord_toNat, opcField, bField, aField, BitVec.extractLsb'_toNat, Nat.shiftRight_eq_div_pow]
  omega

/-- Words with equal fields are equal, and only those. -/
theorem packWord_inj {o o' b b' a a' : Byte} : packWord o b a = packWord o' b' a' ↔ o = o' ∧ b = b' ∧ a = a' := by
  constructor
  · intro h
    exact ⟨by simpa using congrArg opcField h, by simpa using congrArg bField h, by simpa using congrArg aField h⟩
  · rintro ⟨rfl, rfl, rfl⟩
    rfl

/-- Masks act field by field. -/
theorem packWord_and (o b a o' b' a' : Byte) :
    packWord o b a &&& packWord o' b' a' = packWord (o &&& o') (b &&& b') (a &&& a') := by
  have h : ((o ++ b) ++ a : BitVec (8 + 8 + 8)) &&& ((o' ++ b') ++ a') =
      ((o &&& o') ++ (b &&& b')) ++ (a &&& a') := by
    rw [BitVec.and_append, BitVec.and_append]
  exact h

/-- The mask of the rows whose `B` is reserved keeps `OPC` and `B` (R62). -/
theorem and_maskOpcB (o b a : Byte) : packWord o b a &&& 0xFFFF00#24 = packWord o b 0x00#8 := by
  have h : (0xFFFF00#24 : CmdWord) = packWord (BitVec.allOnes 8) (BitVec.allOnes 8) 0x00#8 := by decide
  rw [h, packWord_and, BitVec.and_allOnes, BitVec.and_allOnes, BitVec.and_zero]

/-- The mask of the pair rows keeps `OPC` (R62). -/
theorem and_maskOpc (o b a : Byte) : packWord o b a &&& 0xFF0000#24 = packWord o 0x00#8 0x00#8 := by
  have h : (0xFF0000#24 : CmdWord) = packWord (BitVec.allOnes 8) 0x00#8 0x00#8 := by decide
  rw [h, packWord_and, BitVec.and_allOnes, BitVec.and_zero, BitVec.and_zero]

/-- A row with a reserved `B` selects by `OPC` and `B` (R62). -/
theorem mask_eq_opcB (w : CmdWord) (k : Byte) :
    w &&& 0xFFFF00#24 = packWord k 0x00#8 0x00#8 ↔ opcField w = k ∧ bField w = 0x00#8 := by
  conv_lhs => rw [← packWord_fields w, and_maskOpcB]
  simp [packWord_inj]

/-- A pair row selects by `OPC` (R62). -/
theorem mask_eq_opc (w : CmdWord) (k : Byte) :
    w &&& 0xFF0000#24 = packWord k 0x00#8 0x00#8 ↔ opcField w = k := by
  conv_lhs => rw [← packWord_fields w, and_maskOpc]
  simp [packWord_inj]

/-- The decoder by the fields of the word (R64, R65). -/
theorem decode_eq (w : CmdWord) :
    decode w =
      if opcField w = 0x01#8 ∧ bField w = 0x00#8 then some (.rdvr (aField w))
      else if opcField w = 0x02#8 ∧ bField w = 0x00#8 then some (.rdpr (aField w))
      else if opcField w = 0x03#8 ∧ bField w = 0x00#8 then some (.selch (aField w))
      else if opcField w = 0x04#8 then some (.decv (aField w) (bField w))
      else if opcField w = 0x05#8 then some (.decp (aField w) (bField w))
      else none := by
  have p1 : (0x010000#24 : CmdWord) = packWord 0x01#8 0x00#8 0x00#8 := by decide
  have p2 : (0x020000#24 : CmdWord) = packWord 0x02#8 0x00#8 0x00#8 := by decide
  have p3 : (0x030000#24 : CmdWord) = packWord 0x03#8 0x00#8 0x00#8 := by decide
  have p4 : (0x040000#24 : CmdWord) = packWord 0x04#8 0x00#8 0x00#8 := by decide
  have p5 : (0x050000#24 : CmdWord) = packWord 0x05#8 0x00#8 0x00#8 := by decide
  unfold decode opcodeMap OpRow.selects
  rw [p1, p2, p3, p4, p5]
  simp only [List.find?_cons, List.find?_nil]
  by_cases h1 : opcField w = 0x01#8 ∧ bField w = 0x00#8
  · have h := (mask_eq_opcB w _).mpr h1
    simp [h, h1, Mnemonic.withFields]
  · have g1 := mt (mask_eq_opcB w _).mp h1
    by_cases h2 : opcField w = 0x02#8 ∧ bField w = 0x00#8
    · have h := (mask_eq_opcB w _).mpr h2
      rw [if_neg h1, if_pos h2, beq_eq_false_iff_ne.mpr g1]
      simp [h, Mnemonic.withFields]
    · have g2 := mt (mask_eq_opcB w _).mp h2
      by_cases h3 : opcField w = 0x03#8 ∧ bField w = 0x00#8
      · have h := (mask_eq_opcB w _).mpr h3
        rw [if_neg h1, if_neg h2, if_pos h3, beq_eq_false_iff_ne.mpr g1, beq_eq_false_iff_ne.mpr g2]
        simp [h, Mnemonic.withFields]
      · have g3 := mt (mask_eq_opcB w _).mp h3
        rw [if_neg h1, if_neg h2, if_neg h3, beq_eq_false_iff_ne.mpr g1, beq_eq_false_iff_ne.mpr g2,
          beq_eq_false_iff_ne.mpr g3]
        by_cases h4 : opcField w = 0x04#8
        · have h := (mask_eq_opc w _).mpr h4
          simp [h, h4, Mnemonic.withFields]
        · have g4 := mt (mask_eq_opc w _).mp h4
          rw [if_neg h4, beq_eq_false_iff_ne.mpr g4]
          by_cases h5 : opcField w = 0x05#8
          · have h := (mask_eq_opc w _).mpr h5
            simp [h, h5, Mnemonic.withFields]
          · have g5 := mt (mask_eq_opc w _).mp h5
            rw [if_neg h5, beq_eq_false_iff_ne.mpr g5]
            rfl

end Sys2Proof
end

