-- ==== Sys2Proof/Laws/State.lean ====
section
/-! SUPPORT. Every field after every update of the state, by rfl: no later proof unfolds a record update. -/

namespace Sys2Proof.Machine

@[simp] theorem State.tick_phase (s : State) : s.tick.phase = s.phase := rfl
@[simp] theorem State.tick_tpend (s : State) : s.tick.tpend = s.tpend := rfl
@[simp] theorem State.tick_dstep (s : State) : s.tick.dstep = s.dstep := rfl
@[simp] theorem State.tick_dcnt (s : State) : s.tick.dcnt = s.dcnt := rfl
@[simp] theorem State.tick_opc (s : State) : s.tick.opc = s.opc := rfl
@[simp] theorem State.tick_a (s : State) : s.tick.a = s.a := rfl
@[simp] theorem State.tick_b (s : State) : s.tick.b = s.b := rfl
@[simp] theorem State.tick_hi (s : State) : s.tick.hi = s.hi := rfl
@[simp] theorem State.tick_res (s : State) : s.tick.res = s.res := rfl
@[simp] theorem State.tick_fcause (s : State) : s.tick.fcause = s.fcause := rfl
@[simp] theorem State.tick_fphase (s : State) : s.tick.fphase = s.fphase := rfl
@[simp] theorem State.tick_params (s : State) : s.tick.params = s.params := rfl
@[simp] theorem State.tick_script (s : State) : s.tick.script = s.script.tail := rfl
@[simp] theorem State.tick_cycle (s : State) : s.tick.cycle = s.cycle + 1 := rfl
@[simp] theorem State.tick_record (s : State) : s.tick.record = s.record := rfl

@[simp] theorem State.resetBlock_phase (s : State) : s.resetBlock.phase = .idle := rfl
@[simp] theorem State.resetBlock_tpend (s : State) : s.resetBlock.tpend = false := rfl
@[simp] theorem State.resetBlock_dstep (s : State) : s.resetBlock.dstep = false := rfl
@[simp] theorem State.resetBlock_dcnt (s : State) : s.resetBlock.dcnt = 0#32 := rfl
@[simp] theorem State.resetBlock_opc (s : State) : s.resetBlock.opc = 0x00#8 := rfl
@[simp] theorem State.resetBlock_a (s : State) : s.resetBlock.a = 0x00#8 := rfl
@[simp] theorem State.resetBlock_b (s : State) : s.resetBlock.b = 0x00#8 := rfl
@[simp] theorem State.resetBlock_hi (s : State) : s.resetBlock.hi = 0x00#8 := rfl
@[simp] theorem State.resetBlock_res (s : State) : s.resetBlock.res = 0x0000#16 := rfl
@[simp] theorem State.resetBlock_fcause (s : State) : s.resetBlock.fcause = .none := rfl
@[simp] theorem State.resetBlock_fphase (s : State) : s.resetBlock.fphase = .idle := rfl
@[simp] theorem State.resetBlock_params (s : State) : s.resetBlock.params = s.params := rfl
@[simp] theorem State.resetBlock_script (s : State) : s.resetBlock.script = s.script := rfl
@[simp] theorem State.resetBlock_cycle (s : State) : s.resetBlock.cycle = s.cycle := rfl
@[simp] theorem State.resetBlock_record (s : State) : s.resetBlock.record = s.record := rfl

@[simp] theorem State.log_phase (s : State) (e : Event) : (s.log e).phase = s.phase := rfl
@[simp] theorem State.log_tpend (s : State) (e : Event) : (s.log e).tpend = s.tpend := rfl
@[simp] theorem State.log_dstep (s : State) (e : Event) : (s.log e).dstep = s.dstep := rfl
@[simp] theorem State.log_dcnt (s : State) (e : Event) : (s.log e).dcnt = s.dcnt := rfl
@[simp] theorem State.log_opc (s : State) (e : Event) : (s.log e).opc = s.opc := rfl
@[simp] theorem State.log_a (s : State) (e : Event) : (s.log e).a = s.a := rfl
@[simp] theorem State.log_b (s : State) (e : Event) : (s.log e).b = s.b := rfl
@[simp] theorem State.log_hi (s : State) (e : Event) : (s.log e).hi = s.hi := rfl
@[simp] theorem State.log_res (s : State) (e : Event) : (s.log e).res = s.res := rfl
@[simp] theorem State.log_fcause (s : State) (e : Event) : (s.log e).fcause = s.fcause := rfl
@[simp] theorem State.log_fphase (s : State) (e : Event) : (s.log e).fphase = s.fphase := rfl
@[simp] theorem State.log_params (s : State) (e : Event) : (s.log e).params = s.params := rfl
@[simp] theorem State.log_script (s : State) (e : Event) : (s.log e).script = s.script := rfl
@[simp] theorem State.log_cycle (s : State) (e : Event) : (s.log e).cycle = s.cycle := rfl
@[simp] theorem State.log_record (s : State) (e : Event) : (s.log e).record = s.record ++ [e] := rfl

@[simp] theorem raiseFault_phase (c : Cause) (s : State) : (raiseFault c s).phase = .flt := rfl
@[simp] theorem raiseFault_tpend (c : Cause) (s : State) : (raiseFault c s).tpend = false := rfl
@[simp] theorem raiseFault_dstep (c : Cause) (s : State) : (raiseFault c s).dstep = s.dstep := rfl
@[simp] theorem raiseFault_dcnt (c : Cause) (s : State) : (raiseFault c s).dcnt = s.dcnt := rfl
@[simp] theorem raiseFault_opc (c : Cause) (s : State) : (raiseFault c s).opc = s.opc := rfl
@[simp] theorem raiseFault_a (c : Cause) (s : State) : (raiseFault c s).a = s.a := rfl
@[simp] theorem raiseFault_b (c : Cause) (s : State) : (raiseFault c s).b = s.b := rfl
@[simp] theorem raiseFault_hi (c : Cause) (s : State) : (raiseFault c s).hi = s.hi := rfl
@[simp] theorem raiseFault_res (c : Cause) (s : State) : (raiseFault c s).res = s.res := rfl
@[simp] theorem raiseFault_fcause (c : Cause) (s : State) : (raiseFault c s).fcause = c := rfl
@[simp] theorem raiseFault_fphase (c : Cause) (s : State) : (raiseFault c s).fphase = s.phase := rfl
@[simp] theorem raiseFault_params (c : Cause) (s : State) : (raiseFault c s).params = s.params := rfl
@[simp] theorem raiseFault_script (c : Cause) (s : State) : (raiseFault c s).script = s.script := rfl
@[simp] theorem raiseFault_cycle (c : Cause) (s : State) : (raiseFault c s).cycle = s.cycle := rfl
@[simp] theorem raiseFault_record (c : Cause) (s : State) : (raiseFault c s).record = s.record := rfl

@[simp] theorem latch_phase (w : CmdWord) (s : State) : (latch w s).phase = s.phase := rfl
@[simp] theorem latch_tpend (w : CmdWord) (s : State) : (latch w s).tpend = false := rfl
@[simp] theorem latch_dstep (w : CmdWord) (s : State) : (latch w s).dstep = false := rfl
@[simp] theorem latch_dcnt (w : CmdWord) (s : State) : (latch w s).dcnt = s.dcnt := rfl
@[simp] theorem latch_opc (w : CmdWord) (s : State) : (latch w s).opc = opcField w := rfl
@[simp] theorem latch_a (w : CmdWord) (s : State) : (latch w s).a = aField w := rfl
@[simp] theorem latch_b (w : CmdWord) (s : State) : (latch w s).b = bField w := rfl
@[simp] theorem latch_hi (w : CmdWord) (s : State) : (latch w s).hi = s.hi := rfl
@[simp] theorem latch_res (w : CmdWord) (s : State) : (latch w s).res = s.res := rfl
@[simp] theorem latch_fcause (w : CmdWord) (s : State) : (latch w s).fcause = s.fcause := rfl
@[simp] theorem latch_fphase (w : CmdWord) (s : State) : (latch w s).fphase = s.fphase := rfl
@[simp] theorem latch_params (w : CmdWord) (s : State) : (latch w s).params = s.params := rfl
@[simp] theorem latch_script (w : CmdWord) (s : State) : (latch w s).script = s.script := rfl
@[simp] theorem latch_cycle (w : CmdWord) (s : State) : (latch w s).cycle = s.cycle := rfl
@[simp] theorem latch_record (w : CmdWord) (s : State) : (latch w s).record = s.record := rfl

@[simp] theorem accept_phase (w : CmdWord) (p : Phase) (s : State) : (accept w p s).phase = p := rfl
@[simp] theorem accept_tpend (w : CmdWord) (p : Phase) (s : State) : (accept w p s).tpend = false := rfl
@[simp] theorem accept_dstep (w : CmdWord) (p : Phase) (s : State) : (accept w p s).dstep = false := rfl
@[simp] theorem accept_dcnt (w : CmdWord) (p : Phase) (s : State) : (accept w p s).dcnt = s.dcnt := rfl
@[simp] theorem accept_opc (w : CmdWord) (p : Phase) (s : State) : (accept w p s).opc = opcField w := rfl
@[simp] theorem accept_a (w : CmdWord) (p : Phase) (s : State) : (accept w p s).a = aField w := rfl
@[simp] theorem accept_b (w : CmdWord) (p : Phase) (s : State) : (accept w p s).b = bField w := rfl
@[simp] theorem accept_hi (w : CmdWord) (p : Phase) (s : State) : (accept w p s).hi = s.hi := rfl
@[simp] theorem accept_res (w : CmdWord) (p : Phase) (s : State) : (accept w p s).res = s.res := rfl
@[simp] theorem accept_fcause (w : CmdWord) (p : Phase) (s : State) : (accept w p s).fcause = s.fcause := rfl
@[simp] theorem accept_fphase (w : CmdWord) (p : Phase) (s : State) : (accept w p s).fphase = s.fphase := rfl
@[simp] theorem accept_params (w : CmdWord) (p : Phase) (s : State) : (accept w p s).params = s.params := rfl
@[simp] theorem accept_script (w : CmdWord) (p : Phase) (s : State) : (accept w p s).script = s.script := rfl
@[simp] theorem accept_cycle (w : CmdWord) (p : Phase) (s : State) : (accept w p s).cycle = s.cycle := rfl
@[simp] theorem accept_record (w : CmdWord) (p : Phase) (s : State) : (accept w p s).record = s.record := rfl

@[simp] theorem acceptIllegal_phase (w : CmdWord) (s : State) : (acceptIllegal w s).phase = .flt := rfl
@[simp] theorem acceptIllegal_tpend (w : CmdWord) (s : State) : (acceptIllegal w s).tpend = false := rfl
@[simp] theorem acceptIllegal_dstep (w : CmdWord) (s : State) : (acceptIllegal w s).dstep = false := rfl
@[simp] theorem acceptIllegal_dcnt (w : CmdWord) (s : State) : (acceptIllegal w s).dcnt = s.dcnt := rfl
@[simp] theorem acceptIllegal_opc (w : CmdWord) (s : State) : (acceptIllegal w s).opc = opcField w := rfl
@[simp] theorem acceptIllegal_a (w : CmdWord) (s : State) : (acceptIllegal w s).a = aField w := rfl
@[simp] theorem acceptIllegal_b (w : CmdWord) (s : State) : (acceptIllegal w s).b = bField w := rfl
@[simp] theorem acceptIllegal_hi (w : CmdWord) (s : State) : (acceptIllegal w s).hi = s.hi := rfl
@[simp] theorem acceptIllegal_res (w : CmdWord) (s : State) : (acceptIllegal w s).res = s.res := rfl
@[simp] theorem acceptIllegal_fcause (w : CmdWord) (s : State) : (acceptIllegal w s).fcause = .illegalCommand := rfl
@[simp] theorem acceptIllegal_fphase (w : CmdWord) (s : State) : (acceptIllegal w s).fphase = s.phase := rfl
@[simp] theorem acceptIllegal_params (w : CmdWord) (s : State) : (acceptIllegal w s).params = s.params := rfl
@[simp] theorem acceptIllegal_script (w : CmdWord) (s : State) : (acceptIllegal w s).script = s.script := rfl
@[simp] theorem acceptIllegal_cycle (w : CmdWord) (s : State) : (acceptIllegal w s).cycle = s.cycle := rfl
@[simp] theorem acceptIllegal_record (w : CmdWord) (s : State) : (acceptIllegal w s).record = s.record := rfl

@[simp] theorem complete_phase (v : Half) (s : State) : (complete v s).phase = .rsp := rfl
@[simp] theorem complete_tpend (v : Half) (s : State) : (complete v s).tpend = false := rfl
@[simp] theorem complete_dstep (v : Half) (s : State) : (complete v s).dstep = s.dstep := rfl
@[simp] theorem complete_dcnt (v : Half) (s : State) : (complete v s).dcnt = s.dcnt := rfl
@[simp] theorem complete_opc (v : Half) (s : State) : (complete v s).opc = s.opc := rfl
@[simp] theorem complete_a (v : Half) (s : State) : (complete v s).a = s.a := rfl
@[simp] theorem complete_b (v : Half) (s : State) : (complete v s).b = s.b := rfl
@[simp] theorem complete_hi (v : Half) (s : State) : (complete v s).hi = s.hi := rfl
@[simp] theorem complete_res (v : Half) (s : State) : (complete v s).res = v := rfl
@[simp] theorem complete_fcause (v : Half) (s : State) : (complete v s).fcause = s.fcause := rfl
@[simp] theorem complete_fphase (v : Half) (s : State) : (complete v s).fphase = s.fphase := rfl
@[simp] theorem complete_params (v : Half) (s : State) : (complete v s).params = s.params := rfl
@[simp] theorem complete_script (v : Half) (s : State) : (complete v s).script = s.script := rfl
@[simp] theorem complete_cycle (v : Half) (s : State) : (complete v s).cycle = s.cycle := rfl
@[simp] theorem complete_record (v : Half) (s : State) : (complete v s).record = s.record := rfl

@[simp] theorem completeSilently_phase (s : State) : (completeSilently s).phase = .rsp := rfl
@[simp] theorem completeSilently_tpend (s : State) : (completeSilently s).tpend = false := rfl
@[simp] theorem completeSilently_dstep (s : State) : (completeSilently s).dstep = s.dstep := rfl
@[simp] theorem completeSilently_dcnt (s : State) : (completeSilently s).dcnt = s.dcnt := rfl
@[simp] theorem completeSilently_opc (s : State) : (completeSilently s).opc = s.opc := rfl
@[simp] theorem completeSilently_a (s : State) : (completeSilently s).a = s.a := rfl
@[simp] theorem completeSilently_b (s : State) : (completeSilently s).b = s.b := rfl
@[simp] theorem completeSilently_hi (s : State) : (completeSilently s).hi = s.hi := rfl
@[simp] theorem completeSilently_res (s : State) : (completeSilently s).res = s.res := rfl
@[simp] theorem completeSilently_fcause (s : State) : (completeSilently s).fcause = s.fcause := rfl
@[simp] theorem completeSilently_fphase (s : State) : (completeSilently s).fphase = s.fphase := rfl
@[simp] theorem completeSilently_params (s : State) : (completeSilently s).params = s.params := rfl
@[simp] theorem completeSilently_script (s : State) : (completeSilently s).script = s.script := rfl
@[simp] theorem completeSilently_cycle (s : State) : (completeSilently s).cycle = s.cycle := rfl
@[simp] theorem completeSilently_record (s : State) : (completeSilently s).record = s.record := rfl

@[simp] theorem startTimer_phase (s : State) : (startTimer s).phase = s.phase := rfl
@[simp] theorem startTimer_tpend (s : State) : (startTimer s).tpend = s.tpend := rfl
@[simp] theorem startTimer_dstep (s : State) : (startTimer s).dstep = s.dstep := rfl
@[simp] theorem startTimer_dcnt (s : State) : (startTimer s).dcnt = s.params.spinCount := rfl
@[simp] theorem startTimer_opc (s : State) : (startTimer s).opc = s.opc := rfl
@[simp] theorem startTimer_a (s : State) : (startTimer s).a = s.a := rfl
@[simp] theorem startTimer_b (s : State) : (startTimer s).b = s.b := rfl
@[simp] theorem startTimer_hi (s : State) : (startTimer s).hi = s.hi := rfl
@[simp] theorem startTimer_res (s : State) : (startTimer s).res = s.res := rfl
@[simp] theorem startTimer_fcause (s : State) : (startTimer s).fcause = s.fcause := rfl
@[simp] theorem startTimer_fphase (s : State) : (startTimer s).fphase = s.fphase := rfl
@[simp] theorem startTimer_params (s : State) : (startTimer s).params = s.params := rfl
@[simp] theorem startTimer_script (s : State) : (startTimer s).script = s.script := rfl
@[simp] theorem startTimer_cycle (s : State) : (startTimer s).cycle = s.cycle := rfl
@[simp] theorem startTimer_record (s : State) : (startTimer s).record = s.record := rfl

@[simp] theorem deliverFirst_phase (p : Phase) (d : Byte) (s : State) : (deliverFirst p d s).phase = p := rfl
@[simp] theorem deliverFirst_tpend (p : Phase) (d : Byte) (s : State) : (deliverFirst p d s).tpend = false := rfl
@[simp] theorem deliverFirst_dstep (p : Phase) (d : Byte) (s : State) : (deliverFirst p d s).dstep = true := rfl
@[simp] theorem deliverFirst_dcnt (p : Phase) (d : Byte) (s : State) : (deliverFirst p d s).dcnt = s.dcnt := rfl
@[simp] theorem deliverFirst_opc (p : Phase) (d : Byte) (s : State) : (deliverFirst p d s).opc = s.opc := rfl
@[simp] theorem deliverFirst_a (p : Phase) (d : Byte) (s : State) : (deliverFirst p d s).a = s.a := rfl
@[simp] theorem deliverFirst_b (p : Phase) (d : Byte) (s : State) : (deliverFirst p d s).b = s.b := rfl
@[simp] theorem deliverFirst_hi (p : Phase) (d : Byte) (s : State) : (deliverFirst p d s).hi = d := rfl
@[simp] theorem deliverFirst_res (p : Phase) (d : Byte) (s : State) : (deliverFirst p d s).res = s.res := rfl
@[simp] theorem deliverFirst_fcause (p : Phase) (d : Byte) (s : State) : (deliverFirst p d s).fcause = s.fcause := rfl
@[simp] theorem deliverFirst_fphase (p : Phase) (d : Byte) (s : State) : (deliverFirst p d s).fphase = s.fphase := rfl
@[simp] theorem deliverFirst_params (p : Phase) (d : Byte) (s : State) : (deliverFirst p d s).params = s.params := rfl
@[simp] theorem deliverFirst_script (p : Phase) (d : Byte) (s : State) : (deliverFirst p d s).script = s.script := rfl
@[simp] theorem deliverFirst_cycle (p : Phase) (d : Byte) (s : State) : (deliverFirst p d s).cycle = s.cycle := rfl
@[simp] theorem deliverFirst_record (p : Phase) (d : Byte) (s : State) : (deliverFirst p d s).record = s.record := rfl

@[simp] theorem deliverSecond_phase (d : Byte) (s : State) : (deliverSecond d s).phase = .rsp := rfl
@[simp] theorem deliverSecond_tpend (d : Byte) (s : State) : (deliverSecond d s).tpend = false := rfl
@[simp] theorem deliverSecond_dstep (d : Byte) (s : State) : (deliverSecond d s).dstep = s.dstep := rfl
@[simp] theorem deliverSecond_dcnt (d : Byte) (s : State) : (deliverSecond d s).dcnt = s.dcnt := rfl
@[simp] theorem deliverSecond_opc (d : Byte) (s : State) : (deliverSecond d s).opc = s.opc := rfl
@[simp] theorem deliverSecond_a (d : Byte) (s : State) : (deliverSecond d s).a = s.a := rfl
@[simp] theorem deliverSecond_b (d : Byte) (s : State) : (deliverSecond d s).b = s.b := rfl
@[simp] theorem deliverSecond_hi (d : Byte) (s : State) : (deliverSecond d s).hi = s.hi := rfl
@[simp] theorem deliverSecond_res (d : Byte) (s : State) : (deliverSecond d s).res = combine s.hi d := rfl
@[simp] theorem deliverSecond_fcause (d : Byte) (s : State) : (deliverSecond d s).fcause = s.fcause := rfl
@[simp] theorem deliverSecond_fphase (d : Byte) (s : State) : (deliverSecond d s).fphase = s.fphase := rfl
@[simp] theorem deliverSecond_params (d : Byte) (s : State) : (deliverSecond d s).params = s.params := rfl
@[simp] theorem deliverSecond_script (d : Byte) (s : State) : (deliverSecond d s).script = s.script := rfl
@[simp] theorem deliverSecond_cycle (d : Byte) (s : State) : (deliverSecond d s).cycle = s.cycle := rfl
@[simp] theorem deliverSecond_record (d : Byte) (s : State) : (deliverSecond d s).record = s.record := rfl

end Sys2Proof.Machine
end

