-- ==== Sys2Proof/Laws/Ops.lean ====
section
/-! SUPPORT. One lemma per shared operation that says everything it can do; proofs cite these and do not unfold. -/

namespace Sys2Proof.Machine

variable {s t : State} {i : Instr}

/-- The pins are the script's head where there is one. -/
theorem inputs_of_script {x : Inputs} {xs : List Inputs} (h : s.script = x :: xs) : s.inputs = x := by
  simp [State.inputs, h]

theorem tick_of_script {x : Inputs} {xs : List Inputs} (h : s.script = x :: xs) :
    s.tick = { s with script := xs, cycle := s.cycle + 1 } := by
  simp [State.tick, h]

/-- An offered request is accepted or nothing happens (R46). -/
theorem offer_cases (s : State) :
    (∃ r, s.drivenRequest = some r ∧ s.inputs.tReqReady = true ∧
      offer s = { s with record := s.record ++ [.request r], tpend := true }) ∨
    ((s.inputs.tReqReady = false ∨ s.drivenRequest = none) ∧ offer s = s) := by
  unfold offer
  cases h : s.drivenRequest with
  | none => simp
  | some r => cases hr : s.inputs.tReqReady <;> simp [State.log]

theorem offer_ready {r : Request} (hd : s.drivenRequest = some r) (hr : s.inputs.tReqReady = true) :
    offer s = { s with record := s.record ++ [.request r], tpend := true } := by
  simp [offer, hd, hr, State.log]

theorem offer_notReady (hr : s.inputs.tReqReady = false) : offer s = s := by
  rcases offer_cases s with ⟨r, -, h, -⟩ | ⟨-, h⟩
  · simp [hr] at h
  · exact h

/-- A transaction phase drives a request (R28). -/
theorem drivenRequest_isSome (s : State) : s.drivenRequest.isSome = s.phase.isTransaction := by
  cases h : s.phase <;> simp [State.drivenRequest, Phase.isTransaction, h]

variable {k : State → Result}

theorem transactionCycle_offering (h : s.tpend = false) : transactionCycle k s = .next (offer s) := by
  simp [transactionCycle, h]

theorem transactionCycle_waiting (h : s.tpend = true) (hv : s.inputs.tRspValid = false) :
    transactionCycle k s = .next s := by
  simp [transactionCycle, h, hv]

theorem transactionCycle_failed (h : s.tpend = true) (hv : s.inputs.tRspValid = true)
    (he : s.inputs.tRspErr = true) :
    transactionCycle k s = .next (raiseFault .transportError (s.log (.answer .err))) := by
  simp [transactionCycle, h, hv, he]

theorem transactionCycle_ok (h : s.tpend = true) (hv : s.inputs.tRspValid = true)
    (he : s.inputs.tRspErr = false) : transactionCycle k s = k s := by
  simp [transactionCycle, h, hv, he]

/-- Everything a cycle of a transaction phase can do (R46, R141). -/
theorem transactionCycle_cases (k : State → Result) (s : State) :
    (s.tpend = false ∧ transactionCycle k s = .next (offer s)) ∨
    (s.tpend = true ∧ s.inputs.tRspValid = false ∧ transactionCycle k s = .next s) ∨
    (s.tpend = true ∧ s.inputs.tRspValid = true ∧ s.inputs.tRspErr = true ∧
      transactionCycle k s = .next (raiseFault .transportError (s.log (.answer .err)))) ∨
    (s.tpend = true ∧ s.inputs.tRspValid = true ∧ s.inputs.tRspErr = false ∧ transactionCycle k s = k s) := by
  cases hp : s.tpend <;> cases hv : s.inputs.tRspValid <;> cases he : s.inputs.tRspErr <;>
    simp [transactionCycle, hp, hv, he]

/-- Everything a cycle of a wait can do (R152, R153). -/
theorem delayCycle_cases (f : State → State) (s : State) :
    (s.dcnt = 0#32 ∧ delayCycle f s = f s) ∨
    (s.dcnt ≠ 0#32 ∧ delayCycle f s = { s with dcnt := s.dcnt - 1#32 }) := by
  by_cases h : s.dcnt = 0#32 <;> simp [delayCycle, h]

/-- Everything a cycle of the response can do (R27). -/
theorem responseCycle_cases (s : State) :
    (s.inputs.respReady = true ∧ responseCycle s = { s with phase := .idle }) ∨
    (s.inputs.respReady = false ∧ responseCycle s = s) := by
  cases h : s.inputs.respReady <;> simp [responseCycle, h]

/-- A pair decode's delivery is the first byte's or the second's (R114, R115). -/
theorem deliverPair_cases (p : Phase) (d : Byte) (s : State) :
    (s.dstep = false ∧ deliverPair p d s = .next (deliverFirst p d s)) ∨
    (s.dstep = true ∧ deliverPair p d s = .next (deliverSecond d s)) := by
  cases h : s.dstep <;> simp [deliverPair, h]

/-- A command in `IDLE` is accepted (R64). -/
theorem commandCycle_idle {w : CmdWord} {p : Phase} {v d : Byte → State → Result} (h : s.phase = .idle) :
    commandCycle w p v d s = .next (accept w p s) := by
  simp [commandCycle, h]

/-- A command in progress follows its phase's rule. -/
theorem commandCycle_busy {w : CmdWord} {p : Phase} {v d : Byte → State → Result} (h : s.phase ≠ .idle) :
    commandCycle w p v d s = phaseCycle v d s := by
  simp [commandCycle, h]

@[simp] theorem advance_next (t : State) : advance (.next t) = .next t.tick := rfl

/-- A cycle goes on to `t` exactly when its result does, one tick earlier. -/
theorem advance_eq_next {r : Result} : advance r = .next t ↔ ∃ u, r = .next u ∧ t = u.tick := by
  cases r <;> simp [advance, eq_comm]

theorem clockEdge_rst {r : Result} (h : s.inputs.rst = true) : clockEdge s r = .next s.resetBlock.tick := by
  simp [clockEdge, h]

theorem clockEdge_run {r : Result} (h : s.inputs.rst = false) : clockEdge s r = advance r := by
  simp [clockEdge, h]

/-- In `FLT` every command, or none, changes nothing (R144). -/
theorem phaseCycle_flt {v d : Byte → State → Result} (h : s.phase = .flt) : phaseCycle v d s = .next s := by
  simp [phaseCycle, h]

end Sys2Proof.Machine
end

