-- ==== Sys2Proof/Laws/Exec.lean ====
section
/-! SUPPORT. What `exec` and `step` are, phase by phase: the meanings unfolded once. -/

namespace Sys2Proof.Machine

variable {s t u : State} {i : Instr}

/-- The delivery rule of a command for a byte read in `VRR` (R87). -/
def virtualDelivery : Instr → Byte → State → Result
  | .rdvr _ => deliverByte
  | .rdpr _ => noDelivery
  | .selch _ => noDelivery
  | .decv _ _ => deliverPair .vrw
  | .decp _ _ => noDelivery

/-- The delivery rule of a command for a byte read in `PRR` (R102). -/
def directDelivery : Instr → Byte → State → Result
  | .rdvr _ => noDelivery
  | .rdpr _ => deliverByte
  | .selch _ => noDelivery
  | .decv _ _ => noDelivery
  | .decp _ _ => deliverPair .prr

/-- Every command is accepted in `IDLE` (R64). -/
theorem exec_idle (i : Instr) (h : s.phase = .idle) :
    exec i s = .next (accept (encode i) (firstPhase i) s) := by
  cases i <;> exact commandCycle_idle h

/-- A command in progress runs its phase's rule with its own delivery. -/
theorem exec_busy (i : Instr) (h : s.phase ≠ .idle) :
    exec i s = phaseCycle (virtualDelivery i) (directDelivery i) s := by
  cases i <;> exact commandCycle_busy h

theorem step_rst (h : s.inputs.rst = true) : step s = .next s.resetBlock.tick := clockEdge_rst h

/-- An offered word in `IDLE` is accepted as its command (R25, R64). -/
theorem step_idle_command (hp : s.phase = .idle) (hr : s.inputs.rst = false) (hv : s.inputs.cmdValid = true)
    (hd : decode s.inputs.cmdWord = some i) : step s = .next (accept (encode i) (firstPhase i) s).tick := by
  simp [step, State.command, hp, hv, hd, clockEdge_run hr, exec_idle i hp]

theorem step_idle_illegal (hp : s.phase = .idle) (hr : s.inputs.rst = false) (hv : s.inputs.cmdValid = true)
    (hd : decode s.inputs.cmdWord = none) : step s = .next (acceptIllegal s.inputs.cmdWord s).tick := by
  simp [step, State.command, noCommandCycle, hp, hv, hd, clockEdge_run hr]

theorem step_idle_none (hp : s.phase = .idle) (hr : s.inputs.rst = false) (hv : s.inputs.cmdValid = false) :
    step s = .next s.tick := by
  simp [step, State.command, noCommandCycle, hp, hv, clockEdge_run hr]

/-- A busy cycle: the phase's rule, a byte going to the command whose opcode is latched. -/
theorem step_busy (hp : s.phase ≠ .idle) (hr : s.inputs.rst = false) :
    step s = advance (phaseCycle ((s.latchedCommand).elim noDelivery virtualDelivery)
      ((s.latchedCommand).elim noDelivery directDelivery) s) := by
  have hc : s.command = s.latchedCommand := by simp [State.command, hp]
  unfold step
  rw [clockEdge_run hr, hc]
  cases h : s.latchedCommand with
  | none => simp [noCommandCycle, hp]
  | some i => simp [exec_busy i hp]

/-- Everything a step of an idle block can do without reset. -/
theorem step_idle_cases (hp : s.phase = .idle) (hr : s.inputs.rst = false) :
    (s.inputs.cmdValid = false ∧ step s = .next s.tick) ∨
    (s.inputs.cmdValid = true ∧ decode s.inputs.cmdWord = none ∧
      step s = .next (acceptIllegal s.inputs.cmdWord s).tick) ∨
    (∃ i, s.inputs.cmdValid = true ∧ decode s.inputs.cmdWord = some i ∧
      step s = .next (accept (encode i) (firstPhase i) s).tick) := by
  cases hv : s.inputs.cmdValid with
  | false => exact .inl ⟨rfl, step_idle_none hp hr hv⟩
  | true =>
    cases hd : decode s.inputs.cmdWord with
    | none => exact .inr (.inl ⟨rfl, rfl, step_idle_illegal hp hr hv hd⟩)
    | some i => exact .inr (.inr ⟨i, rfl, rfl, step_idle_command hp hr hv hd⟩)

/-- The phase's rule, phase by phase, for a block that is not idle. -/
theorem step_vrw (hp : s.phase = .vrw) (hr : s.inputs.rst = false) : step s = advance (writeNumberCycle s) := by
  simp [step_busy (by simp [hp] : s.phase ≠ .idle) hr, phaseCycle, hp]

theorem step_dly1 (hp : s.phase = .dly1) (hr : s.inputs.rst = false) : step s = .next (firstWaitCycle s).tick := by
  simp [step_busy (by simp [hp] : s.phase ≠ .idle) hr, phaseCycle, hp]

theorem step_dly2 (hp : s.phase = .dly2) (hr : s.inputs.rst = false) : step s = .next (secondWaitCycle s).tick := by
  simp [step_busy (by simp [hp] : s.phase ≠ .idle) hr, phaseCycle, hp]

theorem step_vrr (hp : s.phase = .vrr) (hr : s.inputs.rst = false) :
    step s = advance (readCycle ((s.latchedCommand).elim noDelivery virtualDelivery) s) := by
  simp [step_busy (by simp [hp] : s.phase ≠ .idle) hr, phaseCycle, hp]

theorem step_prr (hp : s.phase = .prr) (hr : s.inputs.rst = false) :
    step s = advance (readCycle ((s.latchedCommand).elim noDelivery directDelivery) s) := by
  simp [step_busy (by simp [hp] : s.phase ≠ .idle) hr, phaseCycle, hp]

theorem step_mxw (hp : s.phase = .mxw) (hr : s.inputs.rst = false) : step s = advance (writeMaskCycle s) := by
  simp [step_busy (by simp [hp] : s.phase ≠ .idle) hr, phaseCycle, hp]

theorem step_rsp (hp : s.phase = .rsp) (hr : s.inputs.rst = false) : step s = .next (responseCycle s).tick := by
  simp [step_busy (by simp [hp] : s.phase ≠ .idle) hr, phaseCycle, hp]

theorem step_flt (hp : s.phase = .flt) (hr : s.inputs.rst = false) : step s = .next s.tick := by
  simp [step_busy (by simp [hp] : s.phase ≠ .idle) hr, phaseCycle, hp]

/-- What a transaction phase does in a step, the success apart: the phase's own rule is `k`. -/
theorem step_transaction (hp : s.phase.isTransaction = true) (hr : s.inputs.rst = false) :
    ∃ k, step s = advance (transactionCycle k s) := by
  cases h : s.phase <;> simp [h, Phase.isTransaction] at hp
  · rw [step_vrw h hr, writeNumberCycle, writeCycle]; exact ⟨_, rfl⟩
  · exact ⟨_, step_vrr h hr⟩
  · exact ⟨_, step_prr h hr⟩
  · rw [step_mxw h hr, writeMaskCycle, writeCycle]; exact ⟨_, rfl⟩

/-- A latched word that decodes is the command its opcode says. -/
theorem latchedCommand_of_decode (h : decode s.latchedWord = some i) : s.latchedCommand = some i := by
  simp only [State.latchedWord, decode_eq, opcField_packWord, bField_packWord, aField_packWord] at h
  split_ifs at h <;> cases h <;> simp_all [State.latchedCommand, opRDVR, opRDPR, opSELCH, opDECV, opDECP]

/-- The opcode of the latched command. -/
theorem opc_of_latchedCommand (h : s.latchedCommand = some i) :
    s.opc = match i with
      | .rdvr _ => 0x01#8
      | .rdpr _ => 0x02#8
      | .selch _ => 0x03#8
      | .decv _ _ => 0x04#8
      | .decp _ _ => 0x05#8 := by
  unfold State.latchedCommand at h
  split_ifs at h <;> cases h <;> assumption

/-- The command of each opcode (R87, R102). -/
theorem latchedCommand_rdvr (h : s.opc = 0x01#8) : s.latchedCommand = some (.rdvr s.a) := by
  simp [State.latchedCommand, opRDVR, h]

theorem latchedCommand_rdpr (h : s.opc = 0x02#8) : s.latchedCommand = some (.rdpr s.a) := by
  simp [State.latchedCommand, opRDVR, opRDPR, h]

theorem latchedCommand_selch (h : s.opc = 0x03#8) : s.latchedCommand = some (.selch s.a) := by
  simp [State.latchedCommand, opRDVR, opRDPR, opSELCH, h]

theorem latchedCommand_decv (h : s.opc = 0x04#8) : s.latchedCommand = some (.decv s.a s.b) := by
  simp [State.latchedCommand, opRDVR, opRDPR, opSELCH, opDECV, h]

theorem latchedCommand_decp (h : s.opc = 0x05#8) : s.latchedCommand = some (.decp s.a s.b) := by
  simp [State.latchedCommand, opRDVR, opRDPR, opSELCH, opDECV, opDECP, h]

end Sys2Proof.Machine
end

