-- ==== Sys2Proof/Laws/PerInstr.lean ====
section
/-! SUPPORT. What holds of every command as syntax, one lemma per constructor. -/

namespace Sys2Proof.Laws.RowOfWord

/-- The word R67 writes for a command is selected by the row of its own mnemonic in the opcode map R62. -/
def Statement (i : Instr) : Prop :=
  ∃ r ∈ opcodeMap, r.mnemonic = i.line.mnemonic ∧ r.selects (encode i) = true

theorem rdvr (a : Byte) : Statement (.rdvr a) :=
  ⟨⟨.RDVR, 0x010000#24, 0xFFFF00#24⟩, by decide, rfl, by
    simp only [OpRow.selects, encode, and_maskOpcB]; decide⟩

theorem rdpr (a : Byte) : Statement (.rdpr a) :=
  ⟨⟨.RDPR, 0x020000#24, 0xFFFF00#24⟩, by decide, rfl, by
    simp only [OpRow.selects, encode, and_maskOpcB]; decide⟩

theorem selch (m : Byte) : Statement (.selch m) :=
  ⟨⟨.SELCH, 0x030000#24, 0xFFFF00#24⟩, by decide, rfl, by
    simp only [OpRow.selects, encode, and_maskOpcB]; decide⟩

theorem decv (lo hi : Byte) : Statement (.decv lo hi) :=
  ⟨⟨.DECV, 0x040000#24, 0xFF0000#24⟩, by decide, rfl, by
    simp only [OpRow.selects, encode, and_maskOpc]; decide⟩

theorem decp (lo hi : Byte) : Statement (.decp lo hi) :=
  ⟨⟨.DECP, 0x050000#24, 0xFF0000#24⟩, by decide, rfl, by
    simp only [OpRow.selects, encode, and_maskOpc]; decide⟩

end Sys2Proof.Laws.RowOfWord

namespace Sys2Proof.Laws.LineOfCommand

/-- The line R67 writes for a command passes both checks of the syntax and assembles to that command. -/
def Statement (i : Instr) : Prop := i.wellFormed = true ∧ i.line.assemble = some i

theorem rdvr (a : Byte) : Statement (.rdvr a) := by
  simp [Statement, Instr.wellFormed, Instr.line, SourceLine.assemble, SourceLine.wellFormed, Mnemonic.arity, byte_le]

theorem rdpr (a : Byte) : Statement (.rdpr a) := by
  simp [Statement, Instr.wellFormed, Instr.line, SourceLine.assemble, SourceLine.wellFormed, Mnemonic.arity, byte_le]

theorem selch (m : Byte) : Statement (.selch m) := by
  simp [Statement, Instr.wellFormed, Instr.line, SourceLine.assemble, SourceLine.wellFormed, Mnemonic.arity, byte_le]

theorem decv (lo hi : Byte) : Statement (.decv lo hi) := by
  simp [Statement, Instr.wellFormed, Instr.line, SourceLine.assemble, SourceLine.wellFormed, Mnemonic.arity, byte_le]

theorem decp (lo hi : Byte) : Statement (.decp lo hi) := by
  simp [Statement, Instr.wellFormed, Instr.line, SourceLine.assemble, SourceLine.wellFormed, Mnemonic.arity, byte_le]

end Sys2Proof.Laws.LineOfCommand
end

