-- ==== Sys2Proof/Laws/Runs.lean ====
section
/-! SUPPORT. Runs of several cycles: how they are put together, and what a transaction's cycles up to its answer do. -/

namespace Sys2Proof.Machine

variable {s t : State}

@[simp] theorem runFor_zero (s : State) : runFor 0 s = .next s := rfl

/-- A run of any core begins with its first step. -/
theorem run_succ_next (M : Host.Core) (n : Nat) (s t : M.State) (h : M.step s = .next t) :
    M.run (n + 1) s = M.run n t := by
  simp [Host.Core.run, h]

theorem run_succ_refused (M : Host.Core) (n : Nat) (s : M.State) (r : M.Refusal) (h : M.step s = .refused r) :
    M.run (n + 1) s = .refused r := by
  simp [Host.Core.run, h]

theorem runFor_succ {n : Nat} (h : step s = .next t) : runFor (n + 1) s = runFor n t :=
  run_succ_next Sys2Proof.core n s t h

/-- A run is its parts in order. -/
theorem runFor_add (m n : Nat) : ∀ {s t : State}, runFor m s = .next t → runFor (m + n) s = runFor n t := by
  induction m with
  | zero =>
    intro s t h
    cases h
    rw [Nat.zero_add]
  | succ m ih =>
    intro s t h
    have e : m + 1 + n = (m + n) + 1 := by omega
    cases hs : step s with
    | next u =>
      rw [e, runFor_succ hs]
      exact ih (by rw [← runFor_succ hs]; exact h)
    | fault r => exact nomatch r
    | refused r =>
      have h' : runFor (m + 1) s = .refused r := run_succ_refused Sys2Proof.core m s r hs
      rw [h'] at h
      cases h

theorem runFor_one (h : step s = .next t) : runFor 1 s = .next t := runFor_succ (n := 0) h

/-- A block that holds in every cycle of a stretch holds through the stretch. -/
theorem runFor_holds (holds : Inputs → Prop) (ins rest : List Inputs) :
    ∀ s : State, s.script = ins ++ rest → (∀ i ∈ ins, holds i) →
      (∀ u : State, u.phase = s.phase → u.tpend = s.tpend → holds u.inputs → step u = .next u.tick) →
      runFor ins.length s = .next { s with script := rest, cycle := s.cycle + ins.length } := by
  induction ins with
  | nil =>
    intro s hs _ _
    have hs' : s.script = rest := hs
    simp [← hs']
  | cons x xs ih =>
    intro s hs hh hold
    have hi := inputs_of_script hs
    have h1 : step s = .next s.tick := hold s rfl rfl (by rw [hi]; exact hh x (by simp))
    have h2 := ih s.tick (by simp [hs]) (fun i h => hh i (by simp [h])) hold
    rw [List.length_cons, runFor_succ h1, h2]
    simp [State.tick, Nat.add_comm, Nat.add_left_comm]

/-- While the transport does not accept, nothing moves but the environment (R46, R182). -/
theorem step_notReady (hr : s.inputs.rst = false) (hn : s.inputs.tReqReady = false)
    (hp : s.phase.isTransaction = true) (ht : s.tpend = false) : step s = .next s.tick := by
  obtain ⟨k, hk⟩ := step_transaction hp hr
  rw [hk, transactionCycle_offering ht, offer_notReady hn, advance_next]

/-- While the transport does not answer, nothing moves but the environment (R46, R182). -/
theorem step_notAnswered (hr : s.inputs.rst = false) (hn : s.inputs.tRspValid = false)
    (hp : s.phase.isTransaction = true) (ht : s.tpend = true) : step s = .next s.tick := by
  obtain ⟨k, hk⟩ := step_transaction hp hr
  rw [hk, transactionCycle_waiting ht hn, advance_next]

/-- The cycles of a transaction up to its answer (R46): the request is made, and the answer is on the pins. -/
theorem runFor_toAnswer {failed : Bool} {d : Byte} {ins rest : List Inputs} {r : Request}
    (hs : s.script = ins ++ rest) (ht : transacts failed d ins) (hp : s.phase.isTransaction = true)
    (hn : s.tpend = false) (hd : s.drivenRequest = some r) :
    ∃ x m, ins.length = m + 1 ∧
      runFor m s = .next { s with
        tpend := true, record := s.record ++ [.request r], script := x :: rest, cycle := s.cycle + m } ∧
      x.rst = false ∧ x.tRspValid = true ∧ x.tRspErr = failed ∧ x.tRspRdata = d := by
  obtain ⟨before, acc, between, ans, rfl, hu, hb, ha, hw, hv, he, hdat⟩ := ht
  have hub : undisturbed before := fun i h => hu i (by simp [h])
  have hua : acc.rst = false := hu acc (by simp)
  have huw : undisturbed between := fun i h => hu i (by simp [h])
  have r1 := runFor_holds (fun i => i.rst = false ∧ i.tReqReady = false) before (acc :: (between ++ ans :: rest)) s
    (by simpa using hs) (fun i h => ⟨hub i h, hb i h⟩)
    (fun u hup hut h => step_notReady h.1 h.2 (by rw [hup]; exact hp) (by rw [hut]; exact hn))
  let s1 : State := { s with script := acc :: (between ++ ans :: rest), cycle := s.cycle + before.length }
  have hi1 : s1.inputs = acc := inputs_of_script rfl
  have hp1 : s1.phase.isTransaction = true := hp
  obtain ⟨k, hk⟩ := step_transaction hp1 (by rw [hi1]; exact hua)
  have hd1 : s1.drivenRequest = some r := hd
  have h2 : step s1 = .next (offer s1).tick := by
    rw [hk, transactionCycle_offering (s := s1) hn, advance_next]
  rw [offer_ready hd1 (by rw [hi1]; exact ha)] at h2
  have r3 := runFor_holds (fun i => i.rst = false ∧ i.tRspValid = false) between (ans :: rest)
    ({ s1 with record := s1.record ++ [.request r], tpend := true } : State).tick
    (by simp [State.tick, s1]) (fun i h => ⟨huw i h, hw i h⟩)
    (fun u hup hut h => step_notAnswered h.1 h.2 (by rw [hup]; exact hp) (by rw [hut]; rfl))
  refine ⟨ans, before.length + (1 + between.length), by simp; omega, ?_, hu ans (by simp), hv, he, hdat⟩
  rw [runFor_add _ _ r1, runFor_add _ _ (runFor_one h2), r3]
  simp [State.tick, s1, Nat.add_assoc]

end Sys2Proof.Machine
end

