-- ==== Sys2Proof/Laws/Selection.lean ====
section
/-! SUPPORT. Everything one event, and one cycle, can do to the host's view of the selector, said once. -/

namespace Sys2Proof.Machine

variable {p : Params} {v : Selector} {e : Event} {m : Byte} {s t : State}

@[simp] theorem Selector.unknown_known : Selector.unknown.known = none := rfl
@[simp] theorem Selector.unknown_inFlight : Selector.unknown.inFlight = none := rfl

@[simp] theorem Selector.selects_iff : v.selects m = true ↔ v = ⟨some m, none⟩ := by simp [Selector.selects]

/-- A `SELCH`'s request writes to the multiplexer's address. -/
@[simp] theorem Request.writesMux_writeByte : (Request.writeByte p.devMux m).writesMux p = true := by
  simp [Request.writesMux, Request.writeByte]

/-- A mask comes in force by its success, or was in force before an event that leaves the selector. -/
theorem Selector.observe_known (h : (v.observe p e).known = some m) :
    (e.leavesSelector p = true ∧ v.known = some m) ∨ (e = .answer .ok ∧ v.inFlight = some m) := by
  cases e with
  | request r =>
    simp only [Selector.observe] at h
    split_ifs at h with h1 h2
    · cases h
    · exact .inl ⟨by simpa [Event.leavesSelector] using h2, h⟩
  | answer x =>
    cases x with
    | ok =>
      cases hf : v.inFlight with
      | none => simp_all [Selector.observe, Event.leavesSelector]
      | some k => simp_all [Selector.observe, Event.leavesSelector]
    | byte d => exact .inl ⟨rfl, h⟩
    | err => cases h

/-- A mask is in flight only right after its request. -/
theorem Selector.observe_inFlight (h : (v.observe p e).inFlight = some m) :
    e = .request (.writeByte p.devMux m) := by
  cases e with
  | request r =>
    simp only [Selector.observe] at h
    split_ifs at h with h1 h2
    · cases h
      rw [← h1]
    · cases h
  | answer x =>
    cases x with
    | ok => cases hf : v.inFlight <;> simp [Selector.observe, hf] at h
    | byte d => cases h
    | err => cases h

/-- An event that leaves the selector leaves a mask in force. -/
theorem Selector.observe_leaves (he : e.leavesSelector p = true) (hv : v.selects m = true) :
    (v.observe p e).selects m = true := by
  rw [Selector.selects_iff] at hv
  subst hv
  cases e with
  | request r =>
    have hr : r.writesMux p = false := by simpa [Event.leavesSelector] using he
    have hw : r ≠ .writeByte p.devMux r.wdata := by
      intro h
      rw [h, Request.writesMux_writeByte] at hr
      cases hr
    simp [Selector.observe, hr, hw]
  | answer x => cases x <;> simp_all [Selector.observe, Event.leavesSelector]

theorem Selector.track_reset {u : Bool} (h : s.inputs.rst = true) : v.track s t u = .unknown := by
  simp [Selector.track, h]

theorem Selector.track_uses : v.track s t true = .unknown := by simp [Selector.track]

/-- A cycle without reset and without the host's own use is the events it adds to the record. -/
theorem Selector.track_events {es : List Event} (hr : s.inputs.rst = false) (h : t.record = s.record ++ es) :
    v.track s t false = es.foldl (Selector.observe s.params) v := by
  simp [Selector.track, hr, h]

end Sys2Proof.Machine
end

