-- ==== Sys2Proof/Laws/Table.lean ====
section
/-! SUPPORT. What a step can do, said once: with `rst` = 0 it follows a row of the transition table R34. Whole-machine
rules are proved by cases of the row, without unfolding `step`. -/

namespace Sys2Proof.Machine

variable {s t u : State} {i : Instr}

@[simp] theorem State.latched_phase (s : State) : s.latched.phase = s.phase := rfl
@[simp] theorem State.latched_tpend (s : State) : s.latched.tpend = false := rfl
@[simp] theorem State.latched_dstep (s : State) : s.latched.dstep = false := rfl
@[simp] theorem State.latched_dcnt (s : State) : s.latched.dcnt = s.dcnt := rfl
@[simp] theorem State.latched_opc (s : State) : s.latched.opc = s.inputs.cmdWord.extractLsb' 16 8 := rfl
@[simp] theorem State.latched_a (s : State) : s.latched.a = s.inputs.cmdWord.extractLsb' 0 8 := rfl
@[simp] theorem State.latched_b (s : State) : s.latched.b = s.inputs.cmdWord.extractLsb' 8 8 := rfl
@[simp] theorem State.latched_hi (s : State) : s.latched.hi = s.hi := rfl
@[simp] theorem State.latched_res (s : State) : s.latched.res = s.res := rfl
@[simp] theorem State.latched_fcause (s : State) : s.latched.fcause = s.fcause := rfl
@[simp] theorem State.latched_fphase (s : State) : s.latched.fphase = s.fphase := rfl
@[simp] theorem State.latched_params (s : State) : s.latched.params = s.params := rfl
@[simp] theorem State.latched_script (s : State) : s.latched.script = s.script := rfl
@[simp] theorem State.latched_cycle (s : State) : s.latched.cycle = s.cycle := rfl
@[simp] theorem State.latched_record (s : State) : s.latched.record = s.record := rfl

/-- The zero-extension of a byte, as the table writes it. -/
theorem setWidth_eq_append (d : Byte) : d.setWidth 16 = 0x00#8 ++ d := by
  revert d
  decide

/-- The joined bytes, as the table writes them. -/
theorem combine_eq_append (hi lo : Byte) : combine hi lo = hi ++ lo := by
  have h1 := hi.isLt
  have h2 := lo.isLt
  have h3 : hi.toNat <<< 8 = hi.toNat * 256 := by rw [Nat.shiftLeft_eq]
  apply BitVec.eq_of_toNat_eq
  unfold combine
  rw [BitVec.toNat_append]
  simp only [BitVec.toNat_or, BitVec.toNat_shiftLeft, BitVec.toNat_setWidth]
  rw [Nat.mod_eq_of_lt (show lo.toNat < 2 ^ 16 by omega), Nat.mod_eq_of_lt (show hi.toNat < 2 ^ 16 by omega), h3,
    Nat.mod_eq_of_lt (by omega)]

/-- What a cycle of an offered or unanswered transaction is in the table; success is left to the phase. -/
theorem transaction_row {k : State → Result} (hp : s.phase.isTransaction = true)
    (hk : ∀ u, s.tpend = true → s.answerOk → k s = .next u → TableRow s u)
    (h : transactionCycle k s = .next u) : TableRow s u := by
  rcases transactionCycle_cases k s with ⟨ht, e⟩ | ⟨ht, hv, e⟩ | ⟨ht, hv, he, e⟩ | ⟨ht, hv, he, e⟩ <;> rw [e] at h
  · cases h
    rcases offer_cases s with ⟨r, hd, hr, e⟩ | ⟨hr, e⟩ <;> rw [e]
    · exact .requested r hp ht hr hd
    · rcases hr with hr | hr
      · exact .notRequested hp ht hr
      · have hs := drivenRequest_isSome s
        simp [hr, hp] at hs
  · cases h
    exact .notAnswered hp ht hv
  · cases h
    exact .failed hp ht ⟨hv, he⟩
  · exact hk u ht ⟨hv, he⟩ h

theorem wait_row {f : State → State} (hp : s.phase = .dly1 ∨ s.phase = .dly2)
    (hf : s.dcnt = 0#32 → TableRow s (f s)) : TableRow s (delayCycle f s) := by
  rcases delayCycle_cases f s with ⟨hd, e⟩ | ⟨hd, e⟩ <;> rw [e]
  · exact hf hd
  · rcases hp with hp | hp
    · exact .dly1Tick hp hd
    · exact .dly2Tick hp hd

/-- An accepted word is on the row its mask selects (R62, R64). -/
theorem accept_row (hp : s.phase = .idle) (hv : s.inputs.cmdValid = true) (hd : decode s.inputs.cmdWord = some i) :
    TableRow s (accept (encode i) (firstPhase i) s) := by
  have hw : ∀ j k, packWord (opcField s.inputs.cmdWord) (bField s.inputs.cmdWord) (aField s.inputs.cmdWord) = encode j →
      accept (encode j) k s = { s.latched with phase := k } := by
    intro j k h
    rw [← h]
    rw [packWord_fields]
    rfl
  rw [decode_eq] at hd
  split_ifs at hd with h1 h2 h3 h4 h5 <;> cases hd
  · rw [hw _ _ (by simp [encode, opRDVR, h1])]
    exact .idleVirtual hp hv (.inl ((mask_eq_opcB _ 0x01#8).mpr h1))
  · rw [hw _ _ (by simp [encode, opRDPR, h2])]
    exact .idleDirect hp hv (.inl ((mask_eq_opcB _ 0x02#8).mpr h2))
  · rw [hw _ _ (by simp [encode, opSELCH, h3])]
    exact .idleSelect hp hv ((mask_eq_opcB _ 0x03#8).mpr h3)
  · rw [hw _ _ (by simp [encode, opDECV, h4])]
    exact .idleVirtual hp hv (.inr ((mask_eq_opc _ 0x04#8).mpr h4))
  · rw [hw _ _ (by simp [encode, opDECP, h5])]
    exact .idleDirect hp hv (.inr ((mask_eq_opc _ 0x05#8).mpr h5))

/-- An illegal word is on the row no mask selects (R65). -/
theorem illegal_row (hp : s.phase = .idle) (hv : s.inputs.cmdValid = true) (hd : decode s.inputs.cmdWord = none) :
    TableRow s (acceptIllegal s.inputs.cmdWord s) := by
  have e : acceptIllegal s.inputs.cmdWord s =
      { s.latched with phase := .flt, fcause := .illegalCommand, fphase := .idle } := by
    simp [acceptIllegal, raiseFault, latch, State.latched, hp, opcField, bField, aField]
  rw [decode_eq] at hd
  split_ifs at hd with h1 h2 h3 h4 h5
  rw [e]
  exact .idleIllegal hp hv (mt (mask_eq_opcB _ 0x01#8).mp h1) (mt (mask_eq_opcB _ 0x02#8).mp h2)
    (mt (mask_eq_opcB _ 0x03#8).mp h3) (mt (mask_eq_opc _ 0x04#8).mp h4) (mt (mask_eq_opc _ 0x05#8).mp h5)

/-- WHAT A STEP CAN DO: with `rst` = 0 it follows a row of R34, and the environment moves on. -/
theorem step_row (hr : s.inputs.rst = false) (h : step s = .next t) : ∃ u, TableRow s u ∧ t = u.tick := by
  cases hp : s.phase with
  | idle =>
    rcases step_idle_cases hp hr with ⟨hv, e⟩ | ⟨hv, hd, e⟩ | ⟨i, hv, hd, e⟩ <;> rw [e] at h <;> cases h
    · exact ⟨_, .idleNone hp hv, rfl⟩
    · exact ⟨_, illegal_row hp hv hd, rfl⟩
    · exact ⟨_, accept_row hp hv hd, rfl⟩
  | vrw =>
    rw [step_vrw hp hr, writeNumberCycle, writeCycle, advance_eq_next] at h
    obtain ⟨u, hu, rfl⟩ := h
    refine ⟨u, transaction_row (by simp [hp, Phase.isTransaction]) ?_ hu, rfl⟩
    intro v ht ha hv
    cases hv
    exact .vrwOk hp ht ha
  | dly1 =>
    rw [step_dly1 hp hr] at h
    cases h
    exact ⟨_, wait_row (.inl hp) (fun hd => .dly1End hp hd), rfl⟩
  | dly2 =>
    rw [step_dly2 hp hr] at h
    cases h
    exact ⟨_, wait_row (.inr hp) (fun hd => .dly2End hp hd), rfl⟩
  | vrr =>
    rw [step_vrr hp hr, advance_eq_next] at h
    obtain ⟨u, hu, rfl⟩ := h
    refine ⟨u, transaction_row (by simp [hp, Phase.isTransaction]) ?_ hu, rfl⟩
    intro v ht ha hv
    cases hd : s.latchedCommand with
    | none => rw [hd] at hv; cases hv
    | some i =>
      have ho := opc_of_latchedCommand hd
      rw [hd] at hv
      cases i with
      | rdvr a =>
        cases hv
        rw [setWidth_eq_append]
        exact .vrrSingle hp ht ha ho
      | rdpr a => cases hv
      | selch m => cases hv
      | decv lo hi =>
        simp only [Option.elim, virtualDelivery] at hv
        rcases deliverPair_cases .vrw s.inputs.tRspRdata (s.log (.answer (.byte s.inputs.tRspRdata))) with
          ⟨hs, e⟩ | ⟨hs, e⟩ <;> rw [e] at hv <;> cases hv
        · exact .vrrFirst hp ht ha ho hs
        · rw [deliverSecond, combine_eq_append]
          exact .vrrSecond hp ht ha ho hs
      | decp lo hi => cases hv
  | prr =>
    rw [step_prr hp hr, advance_eq_next] at h
    obtain ⟨u, hu, rfl⟩ := h
    refine ⟨u, transaction_row (by simp [hp, Phase.isTransaction]) ?_ hu, rfl⟩
    intro v ht ha hv
    cases hd : s.latchedCommand with
    | none => rw [hd] at hv; cases hv
    | some i =>
      have ho := opc_of_latchedCommand hd
      rw [hd] at hv
      cases i with
      | rdpr a =>
        cases hv
        rw [setWidth_eq_append]
        exact .prrSingle hp ht ha ho
      | rdvr a => cases hv
      | selch m => cases hv
      | decp lo hi =>
        simp only [Option.elim, directDelivery] at hv
        rcases deliverPair_cases .prr s.inputs.tRspRdata (s.log (.answer (.byte s.inputs.tRspRdata))) with
          ⟨hs, e⟩ | ⟨hs, e⟩ <;> rw [e] at hv <;> cases hv
        · exact .prrFirst hp ht ha ho hs
        · rw [deliverSecond, combine_eq_append]
          exact .prrSecond hp ht ha ho hs
      | decv lo hi => cases hv
  | mxw =>
    rw [step_mxw hp hr, writeMaskCycle, writeCycle, advance_eq_next] at h
    obtain ⟨u, hu, rfl⟩ := h
    refine ⟨u, transaction_row (by simp [hp, Phase.isTransaction]) ?_ hu, rfl⟩
    intro v ht ha hv
    cases hv
    exact .mxwOk hp ht ha
  | rsp =>
    rw [step_rsp hp hr] at h
    cases h
    rcases responseCycle_cases s with ⟨hy, e⟩ | ⟨hy, e⟩ <;> rw [e]
    · exact ⟨_, .rspTaken hp hy, rfl⟩
    · exact ⟨_, .rspHeld hp hy, rfl⟩
  | flt =>
    rw [step_flt hp hr] at h
    cases h
    exact ⟨_, .fltHeld hp, rfl⟩

/-- A row of the table touches no parameter and nothing of the environment but the record. -/
theorem row_keeps (h : TableRow s u) : u.params = s.params ∧ u.script = s.script ∧ u.cycle = s.cycle := by
  cases h <;> exact ⟨rfl, rfl, rfl⟩

/-- A step, reset included. -/
theorem step_cases (h : step s = .next t) :
    (s.inputs.rst = true ∧ t = s.resetBlock.tick) ∨
    (s.inputs.rst = false ∧ ∃ u, TableRow s u ∧ t = u.tick) := by
  cases hr : s.inputs.rst with
  | true =>
    rw [step_rst hr] at h
    cases h
    exact .inl ⟨rfl, rfl⟩
  | false => exact .inr ⟨rfl, step_row hr h⟩

end Sys2Proof.Machine
end

