-- ==== Sys2Proof/Tests/Slice0.lean ====
section
/-! SUPPORT. The model's own tests: the checks of the assembler syntax, words written out from 30_encoding.md, single
cycles of the vectors of 95_test_vectors.md (their ids stand beside them), and for each statement with premises a concrete
state that meets them. Expected values are the spec's. -/

namespace Sys2Proof.Machine.Tests

open Sys2Proof

/-! ### The assembler syntax (R67) -/

theorem test_line_accepted : (SourceLine.mk .DECV [8, 9]).assemble = some (.decv 0x08#8 0x09#8) := by decide
theorem test_line_largest_operand : (SourceLine.mk .SELCH [255]).wellFormed = true := by decide
theorem test_line_operand_too_large : (SourceLine.mk .RDPR [256]).assemble = none := by decide
theorem test_line_second_operand_too_large : (SourceLine.mk .DECP [0, 256]).wellFormed = false := by decide
theorem test_line_operand_missing : (SourceLine.mk .DECV [5]).wellFormed = false := by decide
theorem test_line_operand_too_many : (SourceLine.mk .RDVR [5, 6]).wellFormed = false := by decide
theorem test_line_no_operand : (SourceLine.mk .SELCH []).assemble = none := by decide

/-! ### Words written out from R60 and R62: OPC, B, A -/

/-- V1: `RDVR 0x05`. -/
theorem test_decode_rdvr : decode 0b00000001_00000000_00000101#24 = some (.rdvr 0x05#8) := by decide

/-- D2v: `RDPR 0xB2`. -/
theorem test_decode_rdpr : decode 0b00000010_00000000_10110010#24 = some (.rdpr 0xB2#8) := by decide

/-- M8: `SELCH 0xFF`. -/
theorem test_decode_selch : decode 0b00000011_00000000_11111111#24 = some (.selch 0xFF#8) := by decide

/-- K2: `DECV 0x0A, 0x0B`. -/
theorem test_decode_decv : decode 0b00000100_00001011_00001010#24 = some (.decv 0x0A#8 0x0B#8) := by decide

/-- K7: `DECP 0x34, 0x35`. -/
theorem test_decode_decp : decode 0b00000101_00110101_00110100#24 = some (.decp 0x34#8 0x35#8) := by decide

/-- E9, E10, E12, E13. -/
theorem test_decode_illegal :
    decode 0x060000#24 = none ∧ decode 0xFFFFFF#24 = none ∧ decode 0x028032#24 = none ∧ decode 0x03FF01#24 = none := by
  decide

/-- E14, E7: `B` is an operand of a pair decode. -/
theorem test_decode_pair_operands :
    decode 0x040000#24 = some (.decv 0x00#8 0x00#8) ∧ decode 0x04FFFF#24 = some (.decv 0xFF#8 0xFF#8) := by decide

/-- K3, K10: the words of the table of R67. -/
theorem test_encode_pair : encode (.decv 0x88#8 0x89#8) = 0x048988#24 ∧ encode (.decp 0xB2#8 0xB3#8) = 0x05B3B2#24 := by
  decide

theorem test_host_word : decodeTableWord 24 0x020033 = some (.rdpr 0x33#8) := by decide

/-! ### States for single cycles -/

/-- The parameters of the vectors (95_test_vectors.md section 0). -/
def exampleParams : Params := ⟨0x10#7, 0x01#8, 0x02#8, 0x20#7, 0x30#7, 2#32⟩

/-- No pin raised. -/
def quiet : Inputs := ⟨false, false, 0x000000#24, false, false, false, false, 0x00#8⟩

/-- The transport accepts. -/
def ready : Inputs := { quiet with tReqReady := true }

/-- The transport answers a write with success. -/
def written : Inputs := { quiet with tRspValid := true }

/-- The transport answers a read with the byte `d`. -/
def answered (d : Byte) : Inputs := { quiet with tRspValid := true, tRspRdata := d }

/-- The transport reports a failure, a byte on its data pins notwithstanding. -/
def failed : Inputs := { quiet with tRspValid := true, tRspErr := true, tRspRdata := 0xEE#8 }

/-- The host offers a word. -/
def offering (w : CmdWord) : Inputs := { quiet with cmdValid := true, cmdWord := w }

/-- The reset state of the vectors' instance, these pins coming. -/
def fresh (pins : List Inputs) : State := { State.reset with params := exampleParams, script := pins }

/-- A command's word latched, in a phase, with no transaction pending. -/
def within (i : Instr) (p : Phase) (pins : List Inputs) : State :=
  { fresh pins with
    phase := p, opc := opcField (encode i), b := bField (encode i), a := aField (encode i) }

/-- The same with a transaction pending. -/
def awaiting (i : Instr) (p : Phase) (pins : List Inputs) : State := { within i p pins with tpend := true }

/-- What is seen of the next state, if there is one. -/
def after {α : Type} (r : Result) (see : State → α) : Option α :=
  match r with
  | .next t => some (see t)
  | .fault _ => none
  | .refused _ => none

/-! ### Single cycles of the commands -/

/-- V3, S6: the payload of `RDVR 0xFF` is 0x7F, written to the mailbox. -/
theorem test_rdvr_request : after (exec (.rdvr 0xFF#8) (within (.rdvr 0xFF#8) .vrw [ready])) (·.record) =
    some [.request ⟨.writeByteData, 0x10#7, 0x01#8, 0x7F#8⟩] := by decide

/-- V7: 0xFF is returned zero-extended. -/
theorem test_rdvr_result : after (exec (.rdvr 0x05#8) (awaiting (.rdvr 0x05#8) .vrr [answered 0xFF#8]))
    (fun t => (t.res, t.phase, t.tpend)) = some (0x00FF#16, .rsp, false) := by decide

/-- D2v: bit 7 of the offset is dropped. -/
theorem test_rdpr_request : after (exec (.rdpr 0xB2#8) (within (.rdpr 0xB2#8) .prr [ready])) (·.record) =
    some [.request ⟨.readByteData, 0x20#7, 0x32#8, 0x00#8⟩] := by decide

/-- D5v: a failed read. -/
theorem test_rdpr_failed : after (exec (.rdpr 0x32#8) (awaiting (.rdpr 0x32#8) .prr [failed]))
    (fun t => (t.phase, t.fcause.code, t.fphase.code, t.res, t.tpend)) = some (.flt, 1#2, 5#4, 0x0000#16, false) := by decide

/-- M8: all 8 bits of the mask go out. -/
theorem test_selch_request : after (exec (.selch 0xFF#8) (within (.selch 0xFF#8) .mxw [ready])) (·.record) =
    some [.request ⟨.writeByte, 0x30#7, 0x00#8, 0xFF#8⟩] := by decide

/-- M10: `SELCH` leaves the earlier result in `RES`. -/
theorem test_selch_keeps_result :
    after (exec (.selch 0x04#8) { awaiting (.selch 0x04#8) .mxw [written] with res := 0x003C#16 })
      (fun t => (t.phase, t.res)) = some (.rsp, 0x003C#16) := by decide

/-- K1: the byte of the high address goes to `HI`; the second sequence starts. -/
theorem test_decv_first : after (exec (.decv 0x08#8 0x09#8) (awaiting (.decv 0x08#8 0x09#8) .vrr [answered 0xFF#8]))
    (fun t => (t.hi, t.dstep, t.phase, t.res, t.cur)) = some (0xFF#8, true, .vrw, 0x0000#16, 0x08#8) := by decide

/-- K1: `RES` = 0xFFFE. -/
theorem test_decv_second :
    after (exec (.decv 0x08#8 0x09#8)
        { awaiting (.decv 0x08#8 0x09#8) .vrr [answered 0xFE#8] with hi := 0xFF#8, dstep := true })
      (fun t => (t.res, t.phase)) = some (0xFFFE#16, .rsp) := by decide

/-- K7: the first read of `DECP 0x34, 0x35` is of offset 0x35. -/
theorem test_decp_request : after (exec (.decp 0x34#8 0x35#8) (within (.decp 0x34#8 0x35#8) .prr [ready])) (·.record) =
    some [.request ⟨.readByteData, 0x20#7, 0x35#8, 0x00#8⟩] := by decide

/-- F6: the second read fails; no partial result. -/
theorem test_decp_failed :
    after (exec (.decp 0x32#8 0x33#8)
        { awaiting (.decp 0x32#8 0x33#8) .prr [failed] with hi := 0x5A#8, dstep := true })
      (fun t => (t.phase, t.fcause.code, t.fphase.code, t.dstep, t.hi, t.res)) =
    some (.flt, 1#2, 5#4, true, 0x5A#8, 0x0000#16) := by decide

/-! ### Single cycles of the block -/

/-- E5: the latches after acceptance. -/
theorem test_step_accepts : after (step (fresh [offering 0x040908#24])) (fun t => (t.phase, t.opc, t.b, t.a)) =
    some (.vrw, 0x04#8, 0x09#8, 0x08#8) := by decide

/-- E11, F8: an illegal word. -/
theorem test_step_illegal :
    after (step (fresh [offering 0x010105#24]))
      (fun t => (t.phase, t.fcause.code, t.fphase.code, t.latchedWord, t.record)) =
    some (.flt, 2#2, 0#4, 0x010105#24, []) := by decide

/-- Z4: `rst` and `cmd_valid` in the same cycle: the command is not accepted. -/
theorem test_step_reset_wins : after (step (fresh [{ offering 0x010005#24 with rst := true }]))
    (fun t => (t.phase, t.opc, t.a)) = some (.idle, 0x00#8, 0x00#8) := by decide

/-- F11: `rst` in the cycle of the failed answer: the reset state, not `FLT`. -/
theorem test_step_reset_over_fault :
    after (step (awaiting (.rdvr 0x05#8) .vrw [{ failed with rst := true }])) (fun t => (t.phase, t.fcause, t.tpend)) =
    some (.idle, .none, false) := by decide

/-- T3: the last cycle of `DLY1` starts the second wait. -/
theorem test_step_expiry : after (step (within (.rdvr 0x05#8) .dly1 [quiet])) (fun t => (t.phase, t.dcnt)) =
    some (.dly2, 2#32) := by decide

/-- F9: in `FLT` nothing the host or the transport does has an effect. -/
theorem test_step_fault_holds :
    after (step (within (.rdvr 0x05#8) .flt
        [{ offering 0x010005#24 with respReady := true, tReqReady := true, tRspValid := true }]))
      (fun t => (t.phase, t.outputs.cmdReady, t.record)) = some (.flt, false, []) := by decide

/-- Z7: an answer with no transaction pending is ignored. -/
theorem test_step_stray_answer : after (step (within (.rdpr 0x32#8) .prr [answered 0x11#8]))
    (fun t => (t.phase, t.tpend, t.res, t.record)) = some (.prr, false, 0x0000#16, []) := by decide

/-- R24 to R28: the outputs of `VRW` while V2's request is offered. -/
theorem test_outputs_of_request :
    (within (.rdvr 0x85#8) .vrw []).outputs =
    ⟨false, false, 0x0000#16, true, false, 0#2, 0#4, true, 1#2, 0x10#7, 0x01#8, 0x05#8⟩ := by decide

/-- The host's placing of a command: the first step after reset accepts it. -/
theorem test_fetch_word : after (step (State.reset.withFetchWord 24 0x05B3B2)) (fun t => (t.phase, t.opc, t.b, t.a)) =
    some (.prr, 0x05#8, 0xB3#8, 0xB2#8) := by decide

/-- Reference devices that hold one byte throughout. -/
def devices : Fixture :=
  { ptr := 0#7, vr := Vector.replicate 128 0x3C#8, muxsel := 0x00#8,
    acc := Vector.replicate 6 (Vector.replicate 128 0x64#8) }

/-- D5v: a direct read before any selection fails. -/
theorem test_fixture_unselected :
    (devices.respond exampleParams (.readByteData 0x20#7 0x32#8)).map Prod.snd = some .err := by decide

/-- U5: the fixture has no answer for the write variant. -/
theorem test_fixture_write_variant :
    (devices.respond exampleParams (.writeByteData 0x10#7 0x01#8 0x85#8)).isNone = true := by decide

/-- S8's pair, and a spot value of S5. -/
theorem test_decode_value : decodeValue 0x00#8 0x64#8 = 100 ∧ decodeValue 0xAB#8 0xCD#8 = -21555 := by decide

/-! ### Premises are met: for each statement with premises, a concrete state and operands

The names are the statements'. Where a statement has several clauses, each has its case, at a boundary where there is one. -/

theorem witness_RstCycleLeavesTheResetState :
    (awaiting (.decv 0x08#8 0x09#8) .vrr [{ failed with rst := true }]).inputs.rst = true := by decide

theorem witness_StepRunsTheDecodedCommand :
    (let s := fresh [offering 0x053332#24]
     s.inputs.rst = false ∧ s.phase = .idle ∧ s.inputs.cmdValid = true ∧
       decode s.inputs.cmdWord = some (.decp 0x32#8 0x33#8)) ∧
    (let s := awaiting (.rdpr 0x32#8) .prr [failed]
     s.inputs.rst = false ∧ s.phase ≠ .idle ∧ decode s.latchedWord = some (.rdpr 0x32#8) ∧ s.latchedCommand = some (.rdpr 0x32#8)) := by decide

/-- Every word can be offered; E1, E3, E4, E7, E6 and E8 take the six branches. -/
theorem witness_EveryWordIsDispatched :
    (∀ w : CmdWord,
      let s := fresh [offering w]
      s.phase = .idle ∧ s.inputs.rst = false ∧ s.inputs.cmdValid = true ∧ s.inputs.cmdWord = w) ∧
    0x0100FF#24 &&& 0xFFFF00#24 = 0x010000#24 ∧ 0x020032#24 &&& 0xFFFF00#24 = 0x020000#24 ∧
    0x030004#24 &&& 0xFFFF00#24 = 0x030000#24 ∧ 0x04FFFF#24 &&& 0xFF0000#24 = 0x040000#24 ∧
    0x053332#24 &&& 0xFF0000#24 = 0x050000#24 ∧ decode 0x000000#24 = none :=
  ⟨fun _ => ⟨rfl, rfl, rfl, rfl⟩, by decide⟩

theorem witness_IllegalCommandFaults :
    let s := fresh [offering 0x060000#24, offering 0x010005#24, failed]
    s.phase = .idle ∧ s.inputs.rst = false ∧ s.inputs.cmdValid = true ∧
      (∀ r ∈ opcodeMap, s.inputs.cmdWord &&& r.mask ≠ r.pattern) ∧
      s.script.tail = [offering 0x010005#24, failed] ++ [] ∧ undisturbed [offering 0x010005#24, failed] := by
  unfold undisturbed
  decide

theorem witness_IdleWithoutCommandHolds :
    let s := fresh [answered 0x11#8]
    s.phase = .idle ∧ s.inputs.rst = false ∧ s.inputs.cmdValid = false := by decide

theorem witness_TransactionIsOffered_address : (within (.rdvr 0x85#8) .vrw []).opc = 0x01#8 ∧
    (within (.rdpr 0x85#8) .prr []).opc = 0x02#8 := by decide

/-- The four phases, the request accepted and not accepted. -/
theorem witness_TransactionIsOffered :
    ∀ x ∈ [ready, quiet], ∀ c ∈ [(Instr.rdvr 0x85#8, Phase.vrw), (.rdvr 0x05#8, .vrr), (.rdpr 0xB2#8, .prr), (.selch 0xFF#8, .mxw)],
      let s := within c.1 c.2 [x]
      s.inputs.rst = false ∧ s.tpend = false ∧ s.phase = c.2 := by decide

theorem witness_NumberWriteIsAnswered :
    ∀ x ∈ [written, failed, quiet],
      let s := awaiting (.rdvr 0x05#8) .vrw [x]
      s.phase = .vrw ∧ s.tpend = true ∧ s.inputs.rst = false := by decide

theorem witness_MaskWriteIsAnswered :
    ∀ x ∈ [written, failed, quiet],
      let s := awaiting (.selch 0x04#8) .mxw [x]
      s.phase = .mxw ∧ s.tpend = true ∧ s.inputs.rst = false := by decide

/-- Failure and silence in both phases; the four commands' deliveries, a pair's first and second byte. -/
theorem witness_ReadIsAnswered_notDelivered :
    ∀ c ∈ [(Instr.rdvr 0x05#8, Phase.vrr), (.rdpr 0x32#8, .prr)],
      let s := awaiting c.1 c.2 [failed]
      let z := awaiting c.1 c.2 [quiet]
      s.tpend = true ∧ s.inputs.rst = false ∧ s.phase = c.2 ∧ s.inputs.tRspValid = true ∧ s.inputs.tRspErr = true ∧
        z.inputs.tRspValid = false := by decide

theorem witness_ReadIsAnswered_single :
    ∀ c ∈ [(Instr.rdvr 0x05#8, Phase.vrr, 0x01#8), (.rdpr 0x32#8, .prr, 0x02#8)],
      let s := awaiting c.1 c.2.1 [answered 0xFF#8]
      s.tpend = true ∧ s.inputs.rst = false ∧ s.phase = c.2.1 ∧ s.opc = c.2.2 ∧
        s.inputs.tRspValid = true ∧ s.inputs.tRspErr = false := by decide

theorem witness_ReadIsAnswered_pair :
    ∀ c ∈ [(Instr.decv 0x08#8 0x09#8, Phase.vrr, 0x04#8), (.decp 0x32#8 0x33#8, .prr, 0x05#8)],
      ∀ half ∈ [false, true],
      let s := { awaiting c.1 c.2.1 [answered 0xFF#8] with dstep := half }
      s.tpend = true ∧ s.inputs.rst = false ∧ s.phase = c.2.1 ∧ s.opc = c.2.2 ∧
        s.dstep = half ∧ s.inputs.tRspValid = true ∧ s.inputs.tRspErr = false := by decide

theorem witness_SingleReadReturnsTheByte :
    (let s := awaiting (.rdvr 0x05#8) .vrr [answered 0xFF#8]
     s.tpend = true ∧ s.inputs.tRspValid = true ∧ s.inputs.tRspErr = false ∧ s.phase = .vrr) ∧
    (let s := awaiting (.rdpr 0x32#8) .prr [answered 0xFF#8]
     s.tpend = true ∧ s.inputs.tRspValid = true ∧ s.inputs.tRspErr = false ∧ s.phase = .prr) := by decide

theorem witness_SelchCompletes :
    let s := awaiting (.selch 0xFF#8) .mxw [written]
    s.phase = .mxw ∧ s.tpend = true ∧ s.inputs.tRspValid = true ∧ s.inputs.tRspErr = false := by decide

/-- The last delivery; and, for what is kept, an acceptance that clears `DSTEP` and a first byte that writes `HI`. -/
theorem witness_PairReturnsBothBytes_kept :
    (let s := { fresh [offering 0x020032#24] with dstep := true }
     s.inputs.rst = false ∧ s.dstep = true ∧ after (step s) (·.dstep) = some false) ∧
    (let s := awaiting (.decp 0x32#8 0x33#8) .prr [answered 0xFF#8]
     s.inputs.rst = false ∧ after (step s) (fun t => decide (t.hi ≠ s.hi)) = some true) := by decide

theorem witness_PairReturnsBothBytes :
    ∀ c ∈ [(Instr.decv 0x08#8 0x09#8, Phase.vrr), (.decp 0x32#8 0x33#8, .prr)],
      let s := { awaiting c.1 c.2 [answered 0xFE#8] with hi := 0xFF#8, dstep := true }
      s.tpend = true ∧ s.inputs.tRspValid = true ∧ s.inputs.tRspErr = false ∧ s.dstep = true ∧ s.phase = c.2 := by decide

theorem witness_PairKeepsTheFirstByte :
    ∀ c ∈ [(Instr.decv 0x08#8 0x09#8, Phase.vrr), (.decp 0x32#8 0x33#8, .prr)],
      let s := awaiting c.1 c.2 [answered 0xFF#8]
      s.tpend = true ∧ s.inputs.tRspValid = true ∧ s.inputs.tRspErr = false ∧ s.dstep = false ∧ s.phase = c.2 ∧
        (after (exec c.1 s) (·.phase)).isSome = true := by decide

/-- The last tick of a wait. -/
theorem witness_TimerTicks :
    ∀ p ∈ [Phase.dly1, .dly2],
      let s := { within (.rdvr 0x05#8) p [ready] with dcnt := 1#32 }
      s.phase = p ∧ s.dcnt ≠ 0#32 ∧ s.inputs.rst = false := by decide

/-- Two ticks to zero; three cycles to the end of each wait; the one cycle of a wait whose count is zero (T1). -/
theorem witness_WaitRunsItsIterations :
    undisturbed [quiet, failed, ready] ∧
    ∀ p ∈ [Phase.dly1, .dly2],
      let s := { within (.rdvr 0x05#8) p [quiet, failed, ready] with dcnt := 2#32 }
      let z := within (.rdvr 0x05#8) p [quiet]
      s.phase = p ∧ s.script = [quiet, failed] ++ [ready] ∧ [quiet, failed].length ≤ s.dcnt.toNat ∧
        s.script = [quiet, failed, ready] ++ [] ∧ [quiet, failed, ready].length = s.dcnt.toNat + 1 ∧
        z.phase = p ∧ z.script = [quiet] ++ [] ∧ [quiet].length = z.dcnt.toNat + 1 := by
  unfold undisturbed
  decide

theorem witness_ResponseIsHeldUntilTaken :
    ∀ x ∈ [{ quiet with respReady := true }, quiet],
      let s := within (.rdpr 0x32#8) .rsp [x]
      s.phase = .rsp ∧ s.inputs.rst = false := by decide

theorem witness_FaultStateHolds :
    let s := within (.rdvr 0x05#8) .flt [offering 0x010005#24]
    s.phase = .flt ∧ s.inputs.rst = false := by decide

/-- An illegal word, and a failure in each transaction phase. -/
theorem witness_FaultEntryRecordsCauseAndPhase :
    ∀ s ∈ [fresh [offering 0x000000#24], awaiting (.rdvr 0x05#8) .vrw [failed], awaiting (.rdvr 0x05#8) .vrr [failed],
        awaiting (.rdpr 0x32#8) .prr [failed], awaiting (.selch 0x04#8) .mxw [failed]],
      s.inputs.rst = false ∧ s.phase ≠ .flt ∧ after (step s) (·.phase) = some .flt := by decide

theorem witness_RequestPortsFollowTheTable :
    let s := within (.selch 0xFF#8) .mxw [quiet]
    s.outputs.tReqValid = true ∧ s.inputs.rst = false ∧ s.inputs.tReqReady = false ∧
      after (step s) (·.phase) = some .mxw := by decide

theorem witness_CurrentAddressOfTheRead :
    (let s := within (.decv 0x08#8 0x09#8) .vrw []
     (s.opc = 0x04#8 ∨ s.opc = 0x05#8) ∧ s.dstep = false) ∧
    (let s := { within (.decp 0x08#8 0x09#8) .prr [] with dstep := true }
     ¬((s.opc = 0x04#8 ∨ s.opc = 0x05#8) ∧ s.dstep = false)) := by decide

theorem witness_CombinerJoinsTheBytes : (0x7F#8).toNat < 0x80 ∧ 0x80 ≤ (0x80#8).toNat := by decide

theorem witness_CombinerLaws : (-32768 : Int) ≤ -32768 ∧ (32767 : Int) ≤ 32767 ∧ (-32768 : Int) ≤ 32767 := by decide

theorem witness_SignExtensionKeepsTheSample : 16 ≤ 32 ∧ 16 ≤ 16 := by decide

theorem witness_DecodeReadsEveryEncoding :
    ∀ i ∈ [Instr.rdvr 0xFF#8, .rdpr 0xFF#8, .selch 0xFF#8, .decv 0xFF#8 0x00#8, .decp 0x00#8 0xFF#8],
      i.wellFormed = true := by decide

theorem witness_EncodeWritesEveryLegalWord : decode 0x05FFFF#24 = some (.decp 0xFF#8 0xFF#8) := by decide

theorem witness_OpcodeRowsAreDisjoint :
    ⟨.DECV, 0x040000#24, 0xFF0000#24⟩ ∈ opcodeMap ∧ 0x040101#24 &&& 0xFF0000#24 = 0x040000#24 := by decide

/-- Operands that differ in bit 7 only, and the three phases that carry an operand. -/
theorem witness_AddressBitSevenIsDropped :
    (let s := within (.decv 0x88#8 0x09#8) .vrw []
     s.phase ≠ .mxw ∧ (0x08#8).toNat % 128 = s.a.toNat % 128 ∧ (0x89#8).toNat % 128 = s.b.toNat % 128) ∧
    ∀ c ∈ [(Instr.rdvr 0xFF#8, Phase.vrw), (.rdpr 0xFF#8, .prr), (.selch 0xFF#8, .mxw)],
      (within c.1 c.2 []).phase = c.2 ∧ (within c.1 c.2 []).drivenRequest.isSome = true := by decide

/-- `RDVR 0x05` in progress: the write answered, the waits over, the read pending, its byte on the pins. -/
def reading : State :=
  { awaiting (.rdvr 0x05#8) .vrr [answered 0x3C#8] with
    record := [.request (.writeByteData 0x10#7 0x01#8 0x05#8), .answer .ok, .request (.readByteData 0x10#7 0x02#8)] }

theorem reading_serving : reading.serving (.rdvr 0x05#8) := by
  unfold State.serving
  decide

theorem reading_inv : reading.Inv where
  inProgress _ _ := ⟨_, reading_serving⟩
  pending := by decide
  lastRequest := by decide
  timerRests := by decide
  timerBounded := by decide
  halves := by decide
  byteResult h := absurd h (by decide)
  noFault := by decide
  faulted := by decide
  onlyPermitted := by decide

theorem witness_StepKeepsTheInvariant : reading.Inv ∧ ∃ t, step reading = .next t := ⟨reading_inv, _, rfl⟩

theorem witness_InvariantNeverStops : reading.Inv := reading_inv

/-- `DECP` after its first byte, at the start of its second read. -/
def pairReading : State :=
  { within (.decp 0x32#8 0x33#8) .prr [ready] with
    dstep := true
    record := directEvents exampleParams 0x33#8 0x00#8 }

theorem pairReading_inv : pairReading.Inv where
  inProgress _ _ := ⟨.decp 0x32#8 0x33#8, by unfold State.serving; decide⟩
  pending := by decide
  lastRequest := by decide
  timerRests := by decide
  timerBounded := by decide
  halves := by decide
  byteResult h := absurd h (by decide)
  noFault := by decide
  faulted := by decide
  onlyPermitted := by decide

theorem witness_ReadIsAnswered_opcode :
    reading.Inv ∧ reading.phase = .vrr ∧ pairReading.Inv ∧ pairReading.phase = .prr :=
  ⟨reading_inv, rfl, pairReading_inv, rfl⟩

theorem witness_StepIsTheTransitionTable : reading.inputs.rst = false := by decide

/-- A transaction that waits once for its acceptance and once for its answer. -/
def slow (x : Inputs) : List Inputs := [quiet, ready, quiet, x]

theorem slow_transacts (x : Inputs) (hr : x.rst = false) (hv : x.tRspValid = true) :
    transacts x.tRspErr x.tRspRdata (slow x) :=
  ⟨[quiet], ready, [quiet], x, rfl, by simp [undisturbed, slow, quiet, ready, hr], by decide, rfl, by decide, hv, rfl, rfl⟩

/-- The six cycles of two waits with `SPIN_COUNT` = 2 (T3). -/
def sixQuiet : List Inputs := [quiet, quiet, quiet, quiet, quiet, quiet]

theorem sixQuiet_waits : waitsTwice exampleParams sixQuiet := by
  unfold waitsTwice undisturbed
  decide

theorem witness_RdvrRunsToItsResponse :
    let s := fresh (offering 0x0100FF#24 :: (slow written ++ (sixQuiet ++ (slow (answered 0xA5#8) ++ []))))
    s.phase = .idle ∧
      s.script = offering 0x0100FF#24 :: (slow written ++ (sixQuiet ++ (slow (answered 0xA5#8) ++ []))) ∧
      (offering 0x0100FF#24).offers (encode (.rdvr 0xFF#8)) ∧ (∃ e, transacts false e (slow written)) ∧
      waitsTwice s.params sixQuiet ∧ transacts false 0xA5#8 (slow (answered 0xA5#8)) :=
  ⟨rfl, rfl, ⟨rfl, rfl, rfl⟩, ⟨_, slow_transacts written rfl rfl⟩, sixQuiet_waits, slow_transacts (answered _) rfl rfl⟩

theorem witness_RdprRunsToItsResponse :
    let s := fresh (offering 0x020032#24 :: (slow (answered 0x11#8) ++ []))
    s.phase = .idle ∧ s.script = offering 0x020032#24 :: (slow (answered 0x11#8) ++ []) ∧
      (offering 0x020032#24).offers (encode (.rdpr 0x32#8)) ∧ transacts false 0x11#8 (slow (answered 0x11#8)) :=
  ⟨rfl, rfl, ⟨rfl, rfl, rfl⟩, slow_transacts (answered _) rfl rfl⟩

theorem witness_SelchRunsToItsResponse :
    let s := fresh (offering 0x030004#24 :: (slow written ++ []))
    s.phase = .idle ∧ s.script = offering 0x030004#24 :: (slow written ++ []) ∧
      (offering 0x030004#24).offers (encode (.selch 0x04#8)) ∧ transacts false 0x00#8 (slow written) :=
  ⟨rfl, rfl, ⟨rfl, rfl, rfl⟩, slow_transacts written rfl rfl⟩

theorem witness_DecvRunsToItsResponse :
    let pins := offering 0x040908#24 :: (slow written ++ (sixQuiet ++ (slow (answered 0xFF#8) ++
      (slow written ++ (sixQuiet ++ (slow (answered 0xFE#8) ++ []))))))
    let s := fresh pins
    s.phase = .idle ∧ s.script = pins ∧ (offering 0x040908#24).offers (encode (.decv 0x08#8 0x09#8)) ∧
      (∃ e, transacts false e (slow written)) ∧ waitsTwice s.params sixQuiet ∧
      transacts false 0xFF#8 (slow (answered 0xFF#8)) ∧ transacts false 0xFE#8 (slow (answered 0xFE#8)) :=
  ⟨rfl, rfl, ⟨rfl, rfl, rfl⟩, ⟨_, slow_transacts written rfl rfl⟩, sixQuiet_waits, slow_transacts (answered _) rfl rfl,
    slow_transacts (answered _) rfl rfl⟩

theorem witness_DecpRunsToItsResponse :
    let pins := offering 0x053332#24 :: (slow (answered 0x00#8) ++ (slow (answered 0x64#8) ++ []))
    let s := fresh pins
    s.phase = .idle ∧ s.script = pins ∧ (offering 0x053332#24).offers (encode (.decp 0x32#8 0x33#8)) ∧
      transacts false 0x00#8 (slow (answered 0x00#8)) ∧ transacts false 0x64#8 (slow (answered 0x64#8)) :=
  ⟨rfl, rfl, ⟨rfl, rfl, rfl⟩, slow_transacts (answered _) rfl rfl, slow_transacts (answered _) rfl rfl⟩

/-- F5, F6: each read of `DECP` failing. -/
theorem witness_FailedTransactionEndsThePair_direct :
    (let pins := offering 0x053332#24 :: (slow failed ++ [])
     let s := fresh pins
     s.phase = .idle ∧ s.script = pins ∧ (offering 0x053332#24).offers (encode (.decp 0x32#8 0x33#8)) ∧
       transacts true 0xEE#8 (slow failed)) ∧
    (let pins := offering 0x053332#24 :: (slow (answered 0x00#8) ++ (slow failed ++ []))
     let s := fresh pins
     s.phase = .idle ∧ s.script = pins ∧ (offering 0x053332#24).offers (encode (.decp 0x32#8 0x33#8)) ∧
       transacts false 0x00#8 (slow (answered 0x00#8)) ∧ transacts true 0xEE#8 (slow failed)) :=
  ⟨⟨rfl, rfl, ⟨rfl, rfl, rfl⟩, slow_transacts failed rfl rfl⟩,
    ⟨rfl, rfl, ⟨rfl, rfl, rfl⟩, slow_transacts (answered _) rfl rfl, slow_transacts failed rfl rfl⟩⟩

/-- The first and the second transaction of `DECV` failing. -/
theorem witness_FailedTransactionEndsThePair_high :
    (let pins := offering 0x040908#24 :: (slow failed ++ [])
     let s := fresh pins
     s.phase = .idle ∧ s.script = pins ∧ (offering 0x040908#24).offers (encode (.decv 0x08#8 0x09#8)) ∧
       transacts true 0xEE#8 (slow failed)) ∧
    (let pins := offering 0x040908#24 :: (slow written ++ (sixQuiet ++ (slow failed ++ [])))
     let s := fresh pins
     s.phase = .idle ∧ s.script = pins ∧ (offering 0x040908#24).offers (encode (.decv 0x08#8 0x09#8)) ∧
       (∃ e, transacts false e (slow written)) ∧ waitsTwice s.params sixQuiet ∧ transacts true 0xEE#8 (slow failed)) :=
  ⟨⟨rfl, rfl, ⟨rfl, rfl, rfl⟩, slow_transacts failed rfl rfl⟩,
    ⟨rfl, rfl, ⟨rfl, rfl, rfl⟩, ⟨_, slow_transacts written rfl rfl⟩, sixQuiet_waits, slow_transacts failed rfl rfl⟩⟩

/-- F3, F4: the third and the fourth transaction of `DECV` failing. -/
theorem witness_FailedTransactionEndsThePair_low :
    (let pins := offering 0x040908#24 :: (slow written ++ (sixQuiet ++ (slow (answered 0xFF#8) ++ (slow failed ++ []))))
     let s := fresh pins
     s.phase = .idle ∧ s.script = pins ∧ (offering 0x040908#24).offers (encode (.decv 0x08#8 0x09#8)) ∧
       (∃ e, transacts false e (slow written)) ∧ waitsTwice s.params sixQuiet ∧
       transacts false 0xFF#8 (slow (answered 0xFF#8)) ∧ transacts true 0xEE#8 (slow failed)) ∧
    (let pins := offering 0x040908#24 :: (slow written ++ (sixQuiet ++ (slow (answered 0xFF#8) ++
       (slow written ++ (sixQuiet ++ (slow failed ++ []))))))
     let s := fresh pins
     s.phase = .idle ∧ s.script = pins ∧ (offering 0x040908#24).offers (encode (.decv 0x08#8 0x09#8)) ∧
       (∃ e, transacts false e (slow written)) ∧ waitsTwice s.params sixQuiet ∧
       transacts false 0xFF#8 (slow (answered 0xFF#8)) ∧ transacts true 0xEE#8 (slow failed)) :=
  ⟨⟨rfl, rfl, ⟨rfl, rfl, rfl⟩, ⟨_, slow_transacts written rfl rfl⟩, sixQuiet_waits, slow_transacts (answered _) rfl rfl,
      slow_transacts failed rfl rfl⟩,
    ⟨rfl, rfl, ⟨rfl, rfl, rfl⟩, ⟨_, slow_transacts written rfl rfl⟩, sixQuiet_waits, slow_transacts (answered _) rfl rfl,
      slow_transacts failed rfl rfl⟩⟩

/-- F12, F13, and a host that does not take the response. -/
theorem witness_HangsAreKept :
    undisturbed [quiet, quiet] ∧ (∀ i ∈ [quiet, quiet], i.tReqReady = false ∧ i.tRspValid = false ∧ i.respReady = false) ∧
    (let s := within (.rdvr 0x05#8) .vrw ([quiet, quiet] ++ [])
     s.script = [quiet, quiet] ++ [] ∧ s.phase.isTransaction = true ∧ s.tpend = false) ∧
    (let s := awaiting (.rdvr 0x05#8) .vrw ([quiet, quiet] ++ [])
     s.script = [quiet, quiet] ++ [] ∧ s.phase.isTransaction = true ∧ s.tpend = true) ∧
    (let s := within (.rdpr 0x32#8) .rsp ([quiet, quiet] ++ [])
     s.script = [quiet, quiet] ++ [] ∧ s.phase = .rsp) := by
  unfold undisturbed
  decide

/-- In a wait no pin but `rst` is looked at; on a failed answer the byte is not. -/
theorem witness_IgnoredInputsDoNotMatter :
    (let s := within (.rdvr 0x05#8) .dly1 []
     s.looksAt quiet = s.looksAt { failed with cmdValid := true, respReady := true, tReqReady := true }) ∧
    (let s := awaiting (.rdvr 0x05#8) .vrr []
     s.looksAt failed = s.looksAt { failed with tRspRdata := 0x00#8 }) ∧ quiet ≠ failed := by decide

/-- An acceptance changes the latches; a first byte changes `DSTEP`. -/
theorem witness_LatchesChangeOnlyAtAcceptance :
    (let s := fresh [offering 0x053332#24]
     s.inputs.rst = false ∧
       after (step s) (fun t => (decide (t.opc ≠ s.opc), decide (t.a ≠ s.a), decide (t.b ≠ s.b))) =
         some (true, true, true)) ∧
    (let s := awaiting (.decp 0x32#8 0x33#8) .prr [answered 0x00#8]
     s.inputs.rst = false ∧ after (step s) (fun t => decide (t.dstep ≠ s.dstep)) = some true) ∧
    (let s := { fresh [offering 0x020032#24] with dstep := true }
     s.inputs.rst = false ∧ after (step s) (fun t => decide (t.dstep ≠ s.dstep)) = some true) := by decide

/-- The last answer of `RDVR`, an acceptance of a request, and a wait for an answer. -/
theorem witness_PendingIsClearedOnPhaseChange :
    (reading.Inv ∧ after (step reading) (fun t => decide (t.phase ≠ reading.phase)) = some true) ∧
    (let s := within (.rdpr 0x32#8) .prr [ready]
     s.tpend = false ∧ s.phase.isTransaction = true ∧ after (step s) (·.tpend) = some true) ∧
    (let s := awaiting (.rdpr 0x32#8) .prr [quiet]
     s.tpend = true ∧ s.phase.isTransaction = true ∧ s.inputs.rst = false ∧ s.inputs.tRspValid = false) :=
  ⟨⟨reading_inv, by decide⟩, by decide⟩

theorem witness_ResultsChangeOnlyAtDelivery :
    (let s := awaiting (.decv 0x08#8 0x09#8) .vrr [answered 0xFF#8]
     s.inputs.rst = false ∧ after (step s) (fun t => decide (t.hi ≠ s.hi)) = some true) ∧
    (let s := awaiting (.rdpr 0x32#8) .prr [answered 0x11#8]
     s.inputs.rst = false ∧ after (step s) (fun t => decide (t.res ≠ s.res)) = some true) := by decide

theorem witness_TimerAndFaultRecordChange :
    (∀ s ∈ [awaiting (.rdvr 0x05#8) .vrw [written], within (.rdvr 0x05#8) .dly1 [quiet],
        { within (.rdvr 0x05#8) .dly2 [quiet] with dcnt := 1#32 }],
      s.inputs.rst = false ∧ after (step s) (fun t => decide (t.dcnt ≠ s.dcnt)) = some true) ∧
    (let s := awaiting (.selch 0x04#8) .mxw [failed]
     s.inputs.rst = false ∧
       after (step s) (fun t => (decide (t.fcause ≠ s.fcause), decide (t.fphase ≠ s.fphase))) = some (true, true)) := by
  decide

theorem witness_ParametersNeverChange : ∃ t, step reading = .next t := ⟨_, rfl⟩

/-- A request and an answer, each a cycle that goes on. -/
theorem witness_RecordGrowsByOneEvent :
    after (step (within (.rdvr 0xFF#8) .vrw [ready])) (·.record.length) = some 1 ∧
    after (step reading) (·.record.length) = some 4 := by decide

/-- `RDVR`'s number written with the mask 0x04 in force, `DEV_MUX` another device; then a direct read accepted. -/
theorem witness_SelectionLastsUntilTheNextSelch :
    ∀ s ∈ [within (.rdvr 0x05#8) .vrw [ready], within (.rdpr 0x32#8) .prr [ready], reading],
      s.inputs.rst = false ∧ ¬(s.tpend = true ∧ s.answerError) ∧ s.phase ≠ .mxw ∧
        s.params.devVr ≠ s.params.devMux ∧ (Selector.mk (some 0x04#8) none).selects 0x04#8 = true ∧
        (after (step s) (·.phase)).isSome = true := by
  unfold State.answerError
  decide

/-- `SELCH 0x04` from its acceptance to its answer, then a direct read begun: the host's view is the mask. -/
theorem witness_SelectionIsThePremiseOfDirectReads :
    (follow [false, false, false, false, false, false]
        (fresh [offering 0x030004#24, ready, written, { quiet with respReady := true }, offering 0x020032#24, ready])
        .unknown).map (fun x => x.2.selects 0x04#8) = some true := by decide

/-- A direct read accepted with the mask in force. -/
theorem witness_SelectionIsThePremiseOfDirectReads_cycle :
    let s := within (.rdpr 0x32#8) .prr [ready]
    after (step s) (fun t => ((Selector.mk (some 0x04#8) none).track s t false).selects 0x04#8) = some true := by decide

/-- R173, R180: a reset, and the host's own use of the transport, leave nothing known. -/
theorem test_selection_lost : (follow [false, false, false, false]
      (fresh [offering 0x030004#24, ready, written, { quiet with rst := true }]) .unknown).map Prod.snd = some .unknown ∧
    (follow [false, false, false, false, true]
      (fresh [offering 0x030004#24, ready, written, { quiet with respReady := true }, quiet]) .unknown).map Prod.snd =
      some .unknown := by decide

/-- U18: a failed read leaves nothing known; R178, R136 f: nor does a number write where `DEV_MUX = DEV_VR`. -/
theorem test_selection_lost_by_events :
    (Selector.mk (some 0x04#8) none).observe exampleParams (.answer .err) = .unknown ∧
    (Selector.mk (some 0x04#8) none).observe { exampleParams with devMux := 0x10#7 }
      (.request (.writeByteData 0x10#7 0x01#8 0x05#8)) = .unknown := by decide

/-- V1, and D1v with its `SELCH`. -/
theorem witness_ReferenceDevicesReturnTheirBytes :
    (devices.replay exampleParams (virtualEvents exampleParams 0x85#8 0x3C#8)).isSome = true ∧
    exampleParams.devPr ≠ exampleParams.devVr ∧
    (devices.replay exampleParams
      (selectEvents exampleParams (channelMask ⟨5, by decide⟩) ++ directEvents exampleParams 0x32#8 0x64#8)).isSome = true := by
  decide

/-- A command met in `IDLE` and met in each of its phases, and a cycle of it that goes on. -/
theorem witness_RdvrFrame :
    ∀ s ∈ [fresh [quiet], within (.rdvr 0x85#8) .vrw [ready], within (.rdvr 0x85#8) .dly1 [quiet],
        within (.rdvr 0x85#8) .dly2 [quiet], awaiting (.rdvr 0x85#8) .vrr [answered 0x3C#8],
        within (.rdvr 0x85#8) .rsp [quiet]],
      s.meets (.rdvr 0x85#8) ∧ (after (exec (.rdvr 0x85#8) s) (·.phase)).isSome = true := by
  unfold State.meets State.serving
  decide

theorem witness_RdprFrame :
    ∀ s ∈ [fresh [quiet], within (.rdpr 0xB2#8) .prr [ready], awaiting (.rdpr 0xB2#8) .prr [answered 0x11#8],
        within (.rdpr 0xB2#8) .rsp [quiet]],
      s.meets (.rdpr 0xB2#8) ∧ (after (exec (.rdpr 0xB2#8) s) (·.phase)).isSome = true := by
  unfold State.meets State.serving
  decide

theorem witness_SelchFrame :
    ∀ s ∈ [fresh [quiet], within (.selch 0xFF#8) .mxw [ready], awaiting (.selch 0xFF#8) .mxw [written],
        within (.selch 0xFF#8) .rsp [quiet]],
      s.meets (.selch 0xFF#8) ∧ (after (exec (.selch 0xFF#8) s) (·.phase)).isSome = true := by
  unfold State.meets State.serving
  decide

theorem witness_DecvFrame :
    ∀ s ∈ [fresh [quiet], within (.decv 0x88#8 0x89#8) .vrw [ready], within (.decv 0x88#8 0x89#8) .dly1 [quiet],
        awaiting (.decv 0x88#8 0x89#8) .vrr [answered 0xFF#8],
        { awaiting (.decv 0x88#8 0x89#8) .vrr [answered 0xFE#8] with dstep := true }],
      s.meets (.decv 0x88#8 0x89#8) ∧ (after (exec (.decv 0x88#8 0x89#8) s) (·.phase)).isSome = true := by
  unfold State.meets State.serving
  decide

theorem witness_DecpFrame :
    ∀ s ∈ [fresh [quiet], within (.decp 0xB2#8 0xB3#8) .prr [ready], awaiting (.decp 0xB2#8 0xB3#8) .prr [failed],
        { awaiting (.decp 0xB2#8 0xB3#8) .prr [answered 0x64#8] with dstep := true }],
      s.meets (.decp 0xB2#8 0xB3#8) ∧ (after (exec (.decp 0xB2#8 0xB3#8) s) (·.phase)).isSome = true := by
  unfold State.meets State.serving
  decide

end Sys2Proof.Machine.Tests
end

