-- ==== Sys2Proof/Proofs/Scope.lean ====
section
/-! PROOF. The scope family (00_scope.md): a step is a cycle of the decoded command, it writes no parameter, and from a
state that meets the invariant it always goes on. -/

namespace Sys2Proof

/-- The round trip from a command (R62, R67). -/
@[simp] theorem decode_encode (i : Instr) : decode (encode i) = some i := by
  cases i <;> simp [encode, decode_eq, opRDVR, opRDPR, opSELCH, opDECV, opDECP]

end Sys2Proof

namespace Sys2Proof.Machine

variable {s t : State} {i : Instr}

/-! ### The command a cycle belongs to -/

theorem command_offered (hp : s.phase = .idle) (hv : s.inputs.cmdValid = true) :
    s.command = decode s.inputs.cmdWord := by
  simp [State.command, hp, hv]

theorem command_busy (hp : s.phase ≠ .idle) : s.command = s.latchedCommand := by
  simp [State.command, hp]

/-- A cycle without reset that belongs to `i` is `exec i`, the environment moving on. -/
theorem step_of_command (hr : s.inputs.rst = false) (hc : s.command = some i) : step s = advance (exec i s) := by
  simp [step, hc, clockEdge_run hr]

/-- The command in progress is the one whose opcode is latched (R11, R87, R102). -/
theorem latchedCommand_of_serving (h : s.serving i) : s.latchedCommand = some i := by
  obtain ⟨hw, -⟩ := h
  exact latchedCommand_of_decode (by rw [hw, decode_encode])

/-! ### Cycles that go on -/

/-- A pair decode takes every byte (R114, R115). -/
theorem deliverPair_goesOn (p : Phase) (d : Byte) (s : State) : ∃ t, deliverPair p d s = .next t := by
  rcases deliverPair_cases p d s with ⟨-, h⟩ | ⟨-, h⟩ <;> exact ⟨_, h⟩

/-- A command that passes through `VRR` has a delivery rule for the byte read there (R87). -/
theorem virtualDelivery_goesOn (h : runsIn i .vrr = true) (d : Byte) (s : State) :
    ∃ t, virtualDelivery i d s = .next t := by
  cases i with
  | rdvr a => exact ⟨_, rfl⟩
  | decv lo hi => exact deliverPair_goesOn .vrw d s
  | rdpr a => simp [runsIn] at h
  | selch m => simp [runsIn] at h
  | decp lo hi => simp [runsIn] at h

/-- A command that passes through `PRR` has a delivery rule for the byte read there (R102). -/
theorem directDelivery_goesOn (h : runsIn i .prr = true) (d : Byte) (s : State) :
    ∃ t, directDelivery i d s = .next t := by
  cases i with
  | rdpr a => exact ⟨_, rfl⟩
  | decp lo hi => exact deliverPair_goesOn .prr d s
  | rdvr a => simp [runsIn] at h
  | selch m => simp [runsIn] at h
  | decv lo hi => simp [runsIn] at h

/-- A transaction's cycle goes on whenever its success does (R46, R141). -/
theorem transactionCycle_goesOn {k : State → Result} (hk : ∃ t, k s = .next t) :
    ∃ t, transactionCycle k s = .next t := by
  rcases transactionCycle_cases k s with ⟨-, h⟩ | ⟨-, -, h⟩ | ⟨-, -, -, h⟩ | ⟨-, -, -, h⟩
  · exact ⟨_, h⟩
  · exact ⟨_, h⟩
  · exact ⟨_, h⟩
  · rwa [h]

theorem writeCycle_goesOn (f : State → State) (s : State) : ∃ t, writeCycle f s = .next t :=
  transactionCycle_goesOn ⟨_, rfl⟩

theorem readCycle_goesOn {k : Byte → State → Result} (hk : ∀ d u, ∃ t, k d u = .next t) (s : State) :
    ∃ t, readCycle k s = .next t :=
  transactionCycle_goesOn (hk _ _)

/-- Only the delivery of a byte read can stop a busy cycle. -/
theorem phaseCycle_goesOn {v d : Byte → State → Result}
    (hv : s.phase = .vrr → ∀ x u, ∃ t, v x u = .next t) (hd : s.phase = .prr → ∀ x u, ∃ t, d x u = .next t) :
    ∃ t, phaseCycle v d s = .next t := by
  unfold phaseCycle
  cases hp : s.phase with
  | idle => exact ⟨_, rfl⟩
  | vrw => exact writeCycle_goesOn _ s
  | dly1 => exact ⟨_, rfl⟩
  | dly2 => exact ⟨_, rfl⟩
  | vrr => exact readCycle_goesOn (hv hp) s
  | prr => exact readCycle_goesOn (hd hp) s
  | mxw => exact writeCycle_goesOn _ s
  | rsp => exact ⟨_, rfl⟩
  | flt => exact ⟨_, rfl⟩

/-- An idle block goes on whatever is offered (R64, R65, R71). -/
theorem step_idle_goesOn (hp : s.phase = .idle) (hr : s.inputs.rst = false) : ∃ t, step s = .next t := by
  rcases step_idle_cases hp hr with ⟨-, h⟩ | ⟨-, -, h⟩ | ⟨i, -, -, h⟩ <;> exact ⟨_, h⟩

/-- A block with a command in progress, in one of its phases, goes on: the byte read has a delivery rule. -/
theorem step_serving_goesOn (hp : s.phase ≠ .idle) (hr : s.inputs.rst = false) (hs : s.serving i) :
    ∃ t, step s = .next t := by
  have hl := latchedCommand_of_serving hs
  obtain ⟨-, hrun⟩ := hs
  have hc : ∃ u, phaseCycle (virtualDelivery i) (directDelivery i) s = .next u :=
    phaseCycle_goesOn (fun h => virtualDelivery_goesOn (by rwa [h] at hrun))
      (fun h => directDelivery_goesOn (by rwa [h] at hrun))
  obtain ⟨u, hu⟩ := hc
  exact ⟨u.tick, by simp [step_busy hp hr, hl, hu]⟩

/-! ### The obligations -/

/-- Settles O35: idle and failed blocks always go on, and the invariant names the command in progress otherwise. -/
theorem invariantNeverStops : Obligations.InvariantNeverStops := by
  intro s hinv
  cases hr : s.inputs.rst with
  | true => exact ⟨_, step_rst hr⟩
  | false =>
    by_cases hi : s.phase = .idle
    · exact step_idle_goesOn hi hr
    · by_cases hf : s.phase = .flt
      · exact ⟨_, step_flt hf hr⟩
      · obtain ⟨i, hs⟩ := hinv.inProgress hi hf
        exact step_serving_goesOn hi hr hs

/-- Settles O48: neither the reset nor a row of the transition table writes a parameter. -/
theorem parametersNeverChange : Obligations.ParametersNeverChange := by
  intro s t h
  rcases step_cases h with ⟨-, rfl⟩ | ⟨-, u, hrow, rfl⟩
  · rfl
  · obtain ⟨hparams, -, -⟩ := row_keeps hrow
    exact hparams

/-- Settles O3: in each of the three situations the cycle belongs to `i`. -/
theorem stepRunsTheDecodedCommand : Obligations.StepRunsTheDecodedCommand := by
  intro s i hr h
  have hc : s.command = some i := by
    rcases h with ⟨hp, hv, hd⟩ | ⟨hp, hd | hl⟩
    · rw [command_offered hp hv, hd]
    · rw [command_busy hp, latchedCommand_of_decode hd]
    · rw [command_busy hp, hl]
  rw [step_of_command hr hc]
  cases exec i s <;> rfl

end Sys2Proof.Machine
end

