-- ==== Sys2Proof/Proofs/State.lean ====
section
/-! PROOF. The state family (10_state.md): the step is the transition table R34 in both directions, and what a row of the
table does to each register (R11 to R21) is said once; the invariant, the outputs and the rules for the registers follow. -/

namespace Sys2Proof

/-! ### The command of an accepted word (R62, R64) -/

/-- The words of the two commands that begin with the write of a register number. -/
theorem decode_virtual {w : CmdWord}
    (h : w &&& 0xFFFF00#24 = 0x010000#24 ∨ w &&& 0xFF0000#24 = 0x040000#24) :
    ∃ i, decode w = some i ∧ Machine.firstPhase i = .vrw := by
  rcases h with h | h
  · obtain ⟨ho, hb⟩ := (mask_eq_opcB w 0x01#8).mp h
    exact ⟨.rdvr (aField w), by simp [decode_eq, ho, hb], rfl⟩
  · have ho := (mask_eq_opc w 0x04#8).mp h
    exact ⟨.decv (aField w) (bField w), by simp [decode_eq, ho], rfl⟩

/-- The words of the two commands that begin with a direct read. -/
theorem decode_direct {w : CmdWord}
    (h : w &&& 0xFFFF00#24 = 0x020000#24 ∨ w &&& 0xFF0000#24 = 0x050000#24) :
    ∃ i, decode w = some i ∧ Machine.firstPhase i = .prr := by
  rcases h with h | h
  · obtain ⟨ho, hb⟩ := (mask_eq_opcB w 0x02#8).mp h
    exact ⟨.rdpr (aField w), by simp [decode_eq, ho, hb], rfl⟩
  · have ho := (mask_eq_opc w 0x05#8).mp h
    exact ⟨.decp (aField w) (bField w), by simp [decode_eq, ho], rfl⟩

/-- The words of the channel select. -/
theorem decode_select {w : CmdWord} (h : w &&& 0xFFFF00#24 = 0x030000#24) :
    ∃ i, decode w = some i ∧ Machine.firstPhase i = .mxw := by
  obtain ⟨ho, hb⟩ := (mask_eq_opcB w 0x03#8).mp h
  exact ⟨.selch (aField w), by simp [decode_eq, ho, hb], rfl⟩

/-- A word no mask selects is illegal (R65). -/
theorem decode_illegal {w : CmdWord} (h1 : w &&& 0xFFFF00#24 ≠ 0x010000#24) (h2 : w &&& 0xFFFF00#24 ≠ 0x020000#24)
    (h3 : w &&& 0xFFFF00#24 ≠ 0x030000#24) (h4 : w &&& 0xFF0000#24 ≠ 0x040000#24)
    (h5 : w &&& 0xFF0000#24 ≠ 0x050000#24) : decode w = none := by
  rw [decode_eq, if_neg (mt (mask_eq_opcB w 0x01#8).mpr h1), if_neg (mt (mask_eq_opcB w 0x02#8).mpr h2),
    if_neg (mt (mask_eq_opcB w 0x03#8).mpr h3), if_neg (mt (mask_eq_opc w 0x04#8).mpr h4),
    if_neg (mt (mask_eq_opc w 0x05#8).mpr h5)]

/-- The round trip from a legal word: it is the word of its command. -/
theorem encode_of_decode {w : CmdWord} {i : Instr} (h : decode w = some i) : encode i = w := by
  rw [decode_eq] at h
  rw [← packWord_fields w]
  split_ifs at h with h1 h2 h3 h4 h5 <;> cases h
  · obtain ⟨ho, hb⟩ := h1
    rw [ho, hb]
    rfl
  · obtain ⟨ho, hb⟩ := h2
    rw [ho, hb]
    rfl
  · obtain ⟨ho, hb⟩ := h3
    rw [ho, hb]
    rfl
  · rw [h4]
    rfl
  · rw [h5]
    rfl

end Sys2Proof

namespace Sys2Proof.Machine

variable {s t u : State} {i : Instr}

/-! ### Every row of the table is a step (R34) -/

/-- An accepted command latches its word and enters its first phase (R64). -/
theorem step_accepted (hp : s.phase = .idle) (hr : s.inputs.rst = false) (hv : s.inputs.cmdValid = true)
    (hd : decode s.inputs.cmdWord = some i) : step s = .next { s.latched with phase := firstPhase i }.tick := by
  rw [step_idle_command hp hr hv hd, encode_of_decode hd]
  rfl

/-- A byte answered in `VRR` goes to the delivery rule of the command latched (R87). -/
theorem step_vrr_ok (hr : s.inputs.rst = false) (hp : s.phase = .vrr) (ht : s.tpend = true) (ha : s.answerOk)
    (hc : s.latchedCommand = some i) :
    step s = advance (virtualDelivery i s.inputs.tRspRdata (s.log (.answer (.byte s.inputs.tRspRdata)))) := by
  obtain ⟨hv, he⟩ := ha
  rw [step_vrr hp hr, hc, readCycle, transactionCycle_ok ht hv he]
  rfl

/-- A byte answered in `PRR` goes to the delivery rule of the command latched (R102). -/
theorem step_prr_ok (hr : s.inputs.rst = false) (hp : s.phase = .prr) (ht : s.tpend = true) (ha : s.answerOk)
    (hc : s.latchedCommand = some i) :
    step s = advance (directDelivery i s.inputs.tRspRdata (s.log (.answer (.byte s.inputs.tRspRdata)))) := by
  obtain ⟨hv, he⟩ := ha
  rw [step_prr hp hr, hc, readCycle, transactionCycle_ok ht hv he]
  rfl

/-- A single read's delivery, as the table writes it (R89, R103). -/
theorem deliverByte_eq (d : Byte) (s : State) : deliverByte d s = .next (complete (0x00#8 ++ d) s) := by
  rw [deliverByte, setWidth_eq_append]

/-- A pair's first delivery (R114). -/
theorem deliverPair_first (p : Phase) (d : Byte) (h : s.dstep = false) :
    deliverPair p d s = .next (deliverFirst p d s) := by simp [deliverPair, h]

/-- A pair's second delivery, as the table writes it (R115). -/
theorem deliverPair_second (p : Phase) (d : Byte) (h : s.dstep = true) :
    deliverPair p d s = .next (complete (s.hi ++ d) s) := by simp [deliverPair, h, deliverSecond, combine_eq_append]

/-- WHAT A ROW IS: with `rst` = 0 every row of R34 is a step, the converse of `step_row`. -/
theorem row_step (hr : s.inputs.rst = false) (h : TableRow s u) : step s = .next u.tick := by
  cases h with
  | idleNone hp hv => exact step_idle_none hp hr hv
  | idleVirtual hp hv hw =>
    obtain ⟨i, hd, hf⟩ := decode_virtual hw
    rw [step_accepted hp hr hv hd, hf]
  | idleDirect hp hv hw =>
    obtain ⟨i, hd, hf⟩ := decode_direct hw
    rw [step_accepted hp hr hv hd, hf]
  | idleSelect hp hv hw =>
    obtain ⟨i, hd, hf⟩ := decode_select hw
    rw [step_accepted hp hr hv hd, hf]
  | idleIllegal hp hv h1 h2 h3 h4 h5 =>
    rw [step_idle_illegal hp hr hv (decode_illegal h1 h2 h3 h4 h5), acceptIllegal, raiseFault, latch_phase, hp]
    rfl
  | requested r hp ht hy hd =>
    obtain ⟨k, hk⟩ := step_transaction hp hr
    rw [hk, transactionCycle_offering ht, offer_ready hd hy]
    rfl
  | notRequested hp ht hy => exact step_notReady hr hy hp ht
  | failed hp ht ha =>
    obtain ⟨hv, he⟩ := ha
    obtain ⟨k, hk⟩ := step_transaction hp hr
    rw [hk, transactionCycle_failed ht hv he]
    rfl
  | notAnswered hp ht hv => exact step_notAnswered hr hv hp ht
  | vrwOk hp ht ha =>
    obtain ⟨hv, he⟩ := ha
    rw [step_vrw hp hr, writeNumberCycle, writeCycle, transactionCycle_ok ht hv he]
    rfl
  | dly1Tick hp hd => rw [step_dly1 hp hr, firstWaitCycle, delayCycle, if_neg hd]
  | dly1End hp hd => rw [step_dly1 hp hr, firstWaitCycle, delayCycle, if_pos hd]; rfl
  | dly2Tick hp hd => rw [step_dly2 hp hr, secondWaitCycle, delayCycle, if_neg hd]
  | dly2End hp hd => rw [step_dly2 hp hr, secondWaitCycle, delayCycle, if_pos hd]
  | vrrSingle hp ht ha ho =>
    rw [step_vrr_ok hr hp ht ha (latchedCommand_rdvr ho), virtualDelivery, deliverByte_eq]
    rfl
  | vrrFirst hp ht ha ho hd =>
    rw [step_vrr_ok hr hp ht ha (latchedCommand_decv ho), virtualDelivery, deliverPair_first (s := s.log _) _ _ hd]
    rfl
  | vrrSecond hp ht ha ho hd =>
    rw [step_vrr_ok hr hp ht ha (latchedCommand_decv ho), virtualDelivery, deliverPair_second (s := s.log _) _ _ hd]
    rfl
  | prrSingle hp ht ha ho =>
    rw [step_prr_ok hr hp ht ha (latchedCommand_rdpr ho), directDelivery, deliverByte_eq]
    rfl
  | prrFirst hp ht ha ho hd =>
    rw [step_prr_ok hr hp ht ha (latchedCommand_decp ho), directDelivery, deliverPair_first (s := s.log _) _ _ hd]
    rfl
  | prrSecond hp ht ha ho hd =>
    rw [step_prr_ok hr hp ht ha (latchedCommand_decp ho), directDelivery, deliverPair_second (s := s.log _) _ _ hd]
    rfl
  | mxwOk hp ht ha =>
    obtain ⟨hv, he⟩ := ha
    rw [step_mxw hp hr, writeMaskCycle, writeCycle, transactionCycle_ok ht hv he]
    rfl
  | rspTaken hp hy => rw [step_rsp hp hr, responseCycle, if_pos hy]
  | rspHeld hp hy => rw [step_rsp hp hr, responseCycle, hy]; rfl
  | fltHeld hp => exact step_flt hp hr

/-- Settles O36: `step_row` reads a row off a step, `row_step` a step off a row; a row leaves the environment alone. -/
theorem stepIsTheTransitionTable : Obligations.StepIsTheTransitionTable := by
  have htick : ∀ {s u : State}, TableRow s u → { u with script := s.script.tail, cycle := s.cycle + 1 } = u.tick := by
    intro s u h
    obtain ⟨-, hscript, hcycle⟩ := row_keeps h
    rw [State.tick, hscript, hcycle]
  intro s t hr
  constructor
  · intro h
    obtain ⟨u, hrow, rfl⟩ := step_row hr h
    exact ⟨u, hrow, (htick hrow).symm⟩
  · rintro ⟨u, hrow, rfl⟩
    rw [htick hrow]
    exact row_step hr hrow

/-! ### What a row does to each register -/

/-- The first byte of a pair is answered in this cycle (R114). -/
def State.takesFirstByte (s : State) : Prop :=
  s.tpend = true ∧ s.answerOk ∧ s.dstep = false ∧
    ((s.phase = .vrr ∧ s.opc = 0x04#8) ∨ (s.phase = .prr ∧ s.opc = 0x05#8))

/-- `OPC`, `A`, `B`, `DSTEP` and `HI` (R11 to R14, R17): an acceptance, a pair's first byte, or nothing. -/
theorem row_latches (h : TableRow s u) :
    (s.phase = .idle ∧ s.inputs.cmdValid = true ∧ u.dstep = false ∧ u.hi = s.hi) ∨
    (s.takesFirstByte ∧ u.latchedWord = s.latchedWord ∧ u.dstep = true ∧ u.hi = s.inputs.tRspRdata) ∨
    (u.latchedWord = s.latchedWord ∧ u.dstep = s.dstep ∧ u.hi = s.hi) := by
  cases h with
  | idleVirtual hp hv | idleDirect hp hv | idleSelect hp hv | idleIllegal hp hv => exact .inl ⟨hp, hv, rfl, rfl⟩
  | vrrFirst hp ht ha ho hd => exact .inr (.inl ⟨⟨ht, ha, hd, .inl ⟨hp, ho⟩⟩, rfl, rfl, rfl⟩)
  | prrFirst hp ht ha ho hd => exact .inr (.inl ⟨⟨ht, ha, hd, .inr ⟨hp, ho⟩⟩, rfl, rfl, rfl⟩)
  | _ => exact .inr (.inr ⟨rfl, rfl, rfl⟩)

/-- `RES` (R15): the last byte of a read goes to its low half, below 0x00 or, in a pair decode, below `HI`. -/
theorem row_res (h : TableRow s u) :
    u.res = s.res ∨
    (s.tpend = true ∧ s.answerOk ∧ (s.phase = .vrr ∨ s.phase = .prr) ∧ u.phase = .rsp ∧
      ∃ hi : Byte, u.res = hi ++ s.inputs.tRspRdata) := by
  cases h with
  | vrrSingle hp ht ha | vrrSecond hp ht ha => exact .inr ⟨ht, ha, .inl hp, rfl, _, rfl⟩
  | prrSingle hp ht ha | prrSecond hp ht ha => exact .inr ⟨ht, ha, .inr hp, rfl, _, rfl⟩
  | _ => exact .inl rfl

/-- `DCNT` (R19, R151, R152): the two loads, a tick, or nothing. -/
theorem row_dcnt (h : TableRow s u) :
    u.dcnt = s.dcnt ∨
    (u.dcnt = s.params.spinCount ∧ ((s.phase = .vrw ∧ u.phase = .dly1) ∨ (s.phase = .dly1 ∧ u.phase = .dly2))) ∨
    (u.dcnt = s.dcnt - 1#32 ∧ s.dcnt ≠ 0#32 ∧ u.phase = s.phase ∧ (s.phase = .dly1 ∨ s.phase = .dly2)) := by
  cases h with
  | vrwOk hp _ _ => exact .inr (.inl ⟨rfl, .inl ⟨hp, rfl⟩⟩)
  | dly1End hp _ => exact .inr (.inl ⟨rfl, .inr ⟨hp, rfl⟩⟩)
  | dly1Tick hp hd => exact .inr (.inr ⟨rfl, hd, rfl, .inl hp⟩)
  | dly2Tick hp hd => exact .inr (.inr ⟨rfl, hd, rfl, .inr hp⟩)
  | _ => exact .inl rfl

/-- The fault record (R20, R21, R143): written on the entry into `FLT`, with the cause of the phase left. -/
theorem row_fault (h : TableRow s u) :
    (u.fcause = s.fcause ∧ u.fphase = s.fphase ∧ (u.phase = .flt ↔ s.phase = .flt)) ∨
    (u.phase = .flt ∧ u.fphase = s.phase ∧
      ((s.phase = .idle ∧ u.fcause = .illegalCommand) ∨
       (s.phase.isTransaction = true ∧ u.fcause = .transportError))) := by
  cases h with
  | idleIllegal hp _ _ _ _ _ _ => exact .inr ⟨rfl, hp.symm, .inl ⟨hp, rfl⟩⟩
  | failed hp _ _ => exact .inr ⟨rfl, rfl, .inr ⟨hp, rfl⟩⟩
  | _ => exact .inl ⟨rfl, rfl, by simp_all⟩

/-- The record (R58): a request as it stands on the port, an answer, or nothing. -/
theorem row_record (h : TableRow s u) :
    u.record = s.record ∨
    (∃ r, u.record = s.record ++ [.request r] ∧ s.drivenRequest = some r ∧ s.tpend = false ∧
      s.inputs.tReqReady = true ∧ u.tpend = true ∧ u.phase = s.phase) ∨
    (∃ x, u.record = s.record ++ [.answer x] ∧ s.tpend = true ∧ s.inputs.tRspValid = true ∧ u.tpend = false) := by
  cases h with
  | requested r _ ht hy hd => exact .inr (.inl ⟨r, rfl, hd, ht, hy, rfl, rfl⟩)
  | failed _ ht ha | vrwOk _ ht ha | vrrSingle _ ht ha | vrrFirst _ ht ha | vrrSecond _ ht ha | prrSingle _ ht ha
  | prrFirst _ ht ha | prrSecond _ ht ha | mxwOk _ ht ha =>
    obtain ⟨hv, -⟩ := ha
    exact .inr (.inr ⟨_, rfl, ht, hv, rfl⟩)
  | _ => exact .inl rfl

/-- `TPEND` (R18): 1 after a row only by an acceptance on the port, or where it was 1 and nothing but a wait's tick or
one of the two rows that do not write it happened. -/
theorem row_tpend (h : TableRow s u) (ht : u.tpend = true) :
    (∃ r, s.phase.isTransaction = true ∧ s.tpend = false ∧ s.inputs.tReqReady = true ∧ s.drivenRequest = some r ∧
      u = { s with tpend := true, record := s.record ++ [.request r] }) ∨
    (s.tpend = true ∧ (u = s ∨ s.phase.isTransaction = false)) := by
  cases h with
  | requested r hp hn hy hd => exact .inl ⟨r, hp, hn, hy, hd, rfl⟩
  | dly1Tick hp | dly1End hp | dly2Tick hp | rspTaken hp => exact .inr ⟨ht, .inr (by rw [hp]; rfl)⟩
  | idleNone | notRequested | notAnswered | rspHeld | fltHeld => exact .inr ⟨ht, .inl rfl⟩
  | _ => cases ht

/-! ### The command in progress -/

/-- The phases of a virtual-register sequence belong to the same commands (R80, R111). -/
theorem runsIn_dly1 (i : Instr) : runsIn i .dly1 = runsIn i .vrw := by cases i <;> rfl
theorem runsIn_dly2 (i : Instr) : runsIn i .dly2 = runsIn i .vrw := by cases i <;> rfl
theorem runsIn_vrr (i : Instr) : runsIn i .vrr = runsIn i .vrw := by cases i <;> rfl

/-- Every command ends with its response (R6). -/
theorem runsIn_rsp (i : Instr) : runsIn i .rsp = true := by cases i <;> rfl
theorem runsIn_idle (i : Instr) : runsIn i .idle = false := by cases i <;> rfl
theorem runsIn_firstPhase (i : Instr) : runsIn i (firstPhase i) = true := by cases i <;> rfl

/-- A row keeps the command in progress in one of its phases, until the block is idle or failed. -/
theorem row_serving (hs : s.serving i) (h : TableRow s u) (hi : u.phase ≠ .idle) (hf : u.phase ≠ .flt) :
    u.serving i := by
  obtain ⟨hw, hrun⟩ := hs
  cases h with
  | idleNone hp => exact absurd hp hi
  | idleVirtual hp | idleDirect hp | idleSelect hp =>
    rw [hp, runsIn_idle] at hrun
    cases hrun
  | idleIllegal | failed => exact absurd rfl hf
  | vrwOk hp => exact ⟨hw, by rw [runsIn_dly1, ← hp, hrun]⟩
  | dly1End hp => exact ⟨hw, by rw [runsIn_dly2, ← runsIn_dly1, ← hp, hrun]⟩
  | dly2End hp => exact ⟨hw, by rw [runsIn_vrr, ← runsIn_dly2, ← hp, hrun]⟩
  | vrrFirst hp => exact ⟨hw, by rw [← runsIn_vrr, ← hp, hrun]⟩
  | prrFirst hp => exact ⟨hw, by rw [← hp, hrun]⟩
  | vrrSingle | vrrSecond | prrSingle | prrSecond | mxwOk => exact ⟨hw, runsIn_rsp i⟩
  | rspTaken => exact absurd rfl hi
  | _ => exact ⟨hw, hrun⟩

/-- An accepted command is in progress, in its first phase (R64). -/
theorem latched_serving (hd : decode s.inputs.cmdWord = some i) :
    State.serving { s.latched with phase := firstPhase i } i := by
  refine ⟨?_, runsIn_firstPhase i⟩
  rw [encode_of_decode hd]
  exact packWord_fields s.inputs.cmdWord

/-- What the row of an idle block leaves: nothing, a fault, or a command in progress (R64, R65, R71). -/
theorem row_idle (hp : s.phase = .idle) (h : TableRow s u) : u.phase = .idle ∨ u.phase = .flt ∨ ∃ i, u.serving i := by
  cases h with
  | idleNone => exact .inl hp
  | idleVirtual _ _ hw =>
    obtain ⟨i, hd, hf⟩ := decode_virtual hw
    exact .inr (.inr ⟨i, hf ▸ latched_serving hd⟩)
  | idleDirect _ _ hw =>
    obtain ⟨i, hd, hf⟩ := decode_direct hw
    exact .inr (.inr ⟨i, hf ▸ latched_serving hd⟩)
  | idleSelect _ _ hw =>
    obtain ⟨i, hd, hf⟩ := decode_select hw
    exact .inr (.inr ⟨i, hf ▸ latched_serving hd⟩)
  | idleIllegal => exact .inr (.inl rfl)
  | _ => simp_all [Phase.isTransaction]

/-- A command that returns one byte has `RDVR`'s or `RDPR`'s opcode. -/
theorem opc_of_returnsByte (hs : s.serving i) (hb : returnsByte i = true) : s.opc = 0x01#8 ∨ s.opc = 0x02#8 := by
  have ho := opc_of_latchedCommand (latchedCommand_of_serving hs)
  cases i with
  | rdvr a => exact .inl ho
  | rdpr a => exact .inr ho
  | selch m | decv lo hi | decp lo hi => cases hb

/-- In `MXW` the command in progress is a channel select (R130). -/
theorem opc_of_serving_mxw (hs : s.serving i) (hp : s.phase = .mxw) : s.opc = 0x03#8 := by
  have ho := opc_of_latchedCommand (latchedCommand_of_serving hs)
  obtain ⟨_, hrun⟩ := hs
  rw [hp] at hrun
  cases i with
  | selch m => exact ho
  | rdvr a | rdpr a | decv lo hi | decp lo hi => cases hrun

/-! ### The invariant, field by field -/

/-- A pending transaction is one just accepted, or the same as before: a row that leaves `TPEND` = 1 writes nothing else
(R18, R46). -/
theorem row_pending (hinv : s.Inv) (h : TableRow s u) (ht : u.tpend = true) :
    u = s ∨ ∃ r, s.phase.isTransaction = true ∧ s.drivenRequest = some r ∧
      u = { s with tpend := true, record := s.record ++ [.request r] } := by
  rcases row_tpend h ht with ⟨r, hp, -, -, hd, e⟩ | ⟨hs, e | hp⟩
  · exact .inr ⟨r, hp, hd, e⟩
  · exact .inl e
  · rw [hinv.pending hs] at hp
    cases hp

theorem row_keeps_inProgress (hinv : s.Inv) (h : TableRow s u) (hi : u.phase ≠ .idle) (hf : u.phase ≠ .flt) :
    ∃ i, u.serving i := by
  by_cases hp : s.phase = .idle
  · rcases row_idle hp h with hu | hu | hu
    · exact absurd hu hi
    · exact absurd hu hf
    · exact hu
  · have hsf : s.phase ≠ .flt := by
      intro hp
      rcases row_fault h with ⟨-, -, hiff⟩ | ⟨hu, -⟩
      · exact hf (hiff.mpr hp)
      · exact hf hu
    obtain ⟨i, hs⟩ := hinv.inProgress hp hsf
    exact ⟨i, row_serving hs h hi hf⟩

/-- A transaction phase is none of the others (R18). -/
theorem ne_of_isTransaction {p q : Phase} (hp : p.isTransaction = true) (hq : q.isTransaction = false) : p ≠ q := by
  rintro rfl
  rw [hp] at hq
  cases hq

theorem row_keeps_timer (hinv : s.Inv) (h : TableRow s u) (h1 : u.phase ≠ .dly1) (h2 : u.phase ≠ .dly2) :
    u.dcnt = 0#32 := by
  cases h with
  | vrwOk => exact absurd rfl h1
  | dly1End => exact absurd rfl h2
  | dly1Tick hp => exact absurd hp h1
  | dly2Tick hp => exact absurd hp h2
  | dly2End _ hd => exact hd
  | failed hp => exact hinv.timerRests (ne_of_isTransaction hp rfl) (ne_of_isTransaction hp rfl)
  | _ => exact hinv.timerRests (by simp_all) (by simp_all)

theorem row_keeps_timerBound (hinv : s.Inv) (h : TableRow s u) : u.dcnt ≤ u.params.spinCount := by
  have hb := hinv.timerBounded
  obtain ⟨hparams, -, -⟩ := row_keeps h
  rw [hparams]
  rcases row_dcnt h with e | ⟨e, -⟩ | ⟨e, hd, -⟩ <;> rw [e]
  · exact hb
  · exact BitVec.le_refl _
  · bv_omega

/-- The latched word decides whether a pair decode is in progress (R29). -/
theorem isPair_of_latchedWord (h : u.latchedWord = s.latchedWord) : u.isPair = s.isPair := by
  obtain ⟨ho, -, -⟩ := packWord_inj.mp h
  rw [State.isPair, State.isPair, ho]

theorem row_keeps_halves (hinv : s.Inv) (h : TableRow s u) (hd : u.dstep = true) : u.isPair = true := by
  rcases row_latches h with ⟨-, -, h0, -⟩ | ⟨⟨-, -, -, ho⟩, hw, -, -⟩ | ⟨hw, h0, -⟩
  · rw [h0] at hd
    cases hd
  · rw [isPair_of_latchedWord hw]
    rcases ho with ⟨-, ho⟩ | ⟨-, ho⟩ <;> simp [State.isPair, opDECV, opDECP, ho]
  · rw [isPair_of_latchedWord hw]
    exact hinv.halves (h0 ▸ hd)

/-- A zero-extended byte is below 256 (R89, R103). -/
theorem zext_lt (d : Byte) : (0x00#8 ++ d : Half).toNat < 256 := by
  rw [← setWidth_eq_append, BitVec.toNat_setWidth]
  have := d.isLt
  omega

theorem row_keeps_byteResult (hinv : s.Inv) (h : TableRow s u) (hp : u.phase = .rsp) (hs : u.serving i)
    (hb : returnsByte i = true) : u.res.toNat < 256 := by
  have ho := opc_of_returnsByte hs hb
  cases h with
  | vrrSingle | prrSingle => exact zext_lt _
  | vrrSecond _ _ _ ho' | prrSecond _ _ _ ho' => simp [ho'] at ho
  | mxwOk hm =>
    obtain ⟨j, hj⟩ := hinv.inProgress (by simp [hm]) (by simp [hm])
    have ho' := opc_of_serving_mxw hj hm
    simp [ho'] at ho
  | rspHeld => exact hinv.byteResult hp i hs hb
  | _ => simp_all [Phase.isTransaction]

theorem row_keeps_noFault (hinv : s.Inv) (h : TableRow s u) (hp : u.phase ≠ .flt) :
    u.fcause = .none ∧ u.fphase = .idle := by
  rcases row_fault h with ⟨hc, hf, hiff⟩ | ⟨hu, -, -⟩
  · rw [hc, hf]
    exact hinv.noFault (mt hiff.mpr hp)
  · exact absurd hu hp

theorem row_keeps_faulted (hinv : s.Inv) (h : TableRow s u) (hp : u.phase = .flt) :
    (u.fcause = .transportError ∧ u.fphase.isTransaction = true) ∨ (u.fcause = .illegalCommand ∧ u.fphase = .idle) := by
  rcases row_fault h with ⟨hc, hf, hiff⟩ | ⟨-, hf, ⟨hs, hc⟩ | ⟨hs, hc⟩⟩
  · rw [hc, hf]
    exact hinv.faulted (hiff.mp hp)
  · exact .inr ⟨hc, hf.trans hs⟩
  · exact .inl ⟨hc, hf ▸ hs⟩

/-- A transmitted Register Address has bit 7 clear (R63, R82, R104). -/
theorem transmitted_msb (b : Byte) : (transmitted b).msb = false := by
  rw [transmitted, BitVec.msb_and, show (0x7F#8).msb = false from rfl, Bool.and_false]

/-- What a phase drives is a request of R40. -/
theorem drivenRequest_permitted {r : Request} (h : s.drivenRequest = some r) : r.permitted s.params = true := by
  cases hp : s.phase <;> rw [State.drivenRequest, hp] at h <;> cases h <;>
    simp [Request.permitted, Request.writeByte, Request.writeByteData, Request.readByteData, transmitted_msb]

theorem row_keeps_onlyPermitted (hinv : s.Inv) (h : TableRow s u) :
    u.record.all (Event.permitted u.params) = true := by
  have hall := hinv.onlyPermitted
  obtain ⟨hparams, -, -⟩ := row_keeps h
  rw [hparams]
  rcases row_record h with e | ⟨r, e, hd, -⟩ | ⟨x, e, -⟩ <;> rw [e]
  · exact hall
  · simp [hall, Event.permitted, drivenRequest_permitted hd]
  · simp [hall, Event.permitted]

/-- A row of the table keeps the invariant. -/
theorem row_keeps_inv (hinv : s.Inv) (h : TableRow s u) : u.Inv where
  inProgress := row_keeps_inProgress hinv h
  pending ht := by
    rcases row_pending hinv h ht with rfl | ⟨r, hp, -, rfl⟩
    · exact hinv.pending ht
    · exact hp
  lastRequest ht := by
    rcases row_pending hinv h ht with rfl | ⟨r, -, hd, rfl⟩
    · exact hinv.lastRequest ht
    · have hd' : State.drivenRequest { s with tpend := true, record := s.record ++ [.request r] } = some r := hd
      simp [hd']
  timerRests := row_keeps_timer hinv h
  timerBounded := row_keeps_timerBound hinv h
  halves := row_keeps_halves hinv h
  byteResult hp _ hs hb := row_keeps_byteResult hinv h hp hs hb
  noFault := row_keeps_noFault hinv h
  faulted := row_keeps_faulted hinv h
  onlyPermitted := row_keeps_onlyPermitted hinv h

/-- The registers of R33 meet the invariant, whatever requests of R40 were made before the reset. -/
theorem resetBlock_inv (hall : s.record.all (Event.permitted s.params) = true) : s.resetBlock.Inv where
  inProgress h := absurd rfl h
  pending h := by cases h
  lastRequest h := by cases h
  timerRests _ _ := rfl
  timerBounded := BitVec.le_def.mpr (Nat.zero_le _)
  halves h := by cases h
  byteResult h := by cases h
  noFault _ := ⟨rfl, rfl⟩
  faulted h := by cases h
  onlyPermitted := hall

/-- The invariant does not speak of the environment. -/
theorem tick_inv (h : s.Inv) : s.tick.Inv where
  inProgress := h.inProgress
  pending := h.pending
  lastRequest := h.lastRequest
  timerRests := h.timerRests
  timerBounded := h.timerBounded
  halves := h.halves
  byteResult := h.byteResult
  noFault := h.noFault
  faulted := h.faulted
  onlyPermitted := h.onlyPermitted

/-- Settles O34: the reset meets the invariant, and every row of the transition table keeps it. -/
theorem stepKeepsTheInvariant : Obligations.StepKeepsTheInvariant := by
  intro s t hinv h
  rcases step_cases h with ⟨-, rfl⟩ | ⟨-, u, hrow, rfl⟩
  · exact tick_inv (resetBlock_inv hinv.onlyPermitted)
  · exact tick_inv (row_keeps_inv hinv hrow)

/-- Settles O33: the state of R33 with an empty record. -/
theorem resetMeetsTheInvariant : Obligations.ResetMeetsTheInvariant :=
  resetBlock_inv (s := State.reset) rfl

/-! ### The rules for the registers -/

/-- Settles O45: the latches by `row_latches`. -/
theorem latchesChangeOnlyAtAcceptance : Obligations.LatchesChangeOnlyAtAcceptance := by
  intro s t h hr
  obtain ⟨u, hrow, rfl⟩ := step_row hr h
  rcases row_latches hrow with ⟨hp, hv, hd, -⟩ | ⟨⟨ht, ha, -, ho⟩, hw, hd, hh⟩ | ⟨hw, hd, -⟩
  · exact ⟨fun _ => ⟨hp, hv⟩, fun _ => .inl ⟨hd, hp, hv⟩⟩
  · obtain ⟨hopc, hb, ha'⟩ := packWord_inj.mp hw
    exact ⟨fun hne => absurd hne (by simp [hopc, ha', hb]), fun _ => .inr ⟨hd, ht, ha, ho, hh⟩⟩
  · obtain ⟨hopc, hb, ha'⟩ := packWord_inj.mp hw
    exact ⟨fun hne => absurd hne (by simp [hopc, ha', hb]), fun hne => absurd hd hne⟩

/-- The low half of two joined bytes is the second (R110). -/
theorem low_of_append (hi lo : Byte) : (hi ++ lo : Half).extractLsb' 0 8 = lo :=
  BitVec.extractLsb'_append_eq_right

/-- Settles O46: `HI` by `row_latches`, `RES` by `row_res`. -/
theorem resultsChangeOnlyAtDelivery : Obligations.ResultsChangeOnlyAtDelivery := by
  intro s t h hr
  obtain ⟨u, hrow, rfl⟩ := step_row hr h
  constructor
  · intro hne
    rcases row_latches hrow with ⟨-, -, -, hh⟩ | ⟨⟨ht, ha, hd, ho⟩, -, hd', hh⟩ | ⟨-, -, hh⟩
    · exact absurd hh hne
    · exact ⟨ht, ha, hd, hd', hh, ho⟩
    · exact absurd hh hne
  · intro hne
    rcases row_res hrow with he | ⟨ht, ha, hp, hp', hi, he⟩
    · exact absurd he hne
    · exact ⟨ht, ha, hp', hp, by rw [State.tick_res, he, low_of_append]⟩

/-- Settles O47: the timer by `row_dcnt`, the fault record by `row_fault`. -/
theorem timerAndFaultRecordChange : Obligations.TimerAndFaultRecordChange := by
  intro s t h hr
  obtain ⟨u, hrow, rfl⟩ := step_row hr h
  constructor
  · intro hne
    rcases row_dcnt hrow with he | ⟨he, ⟨hp, hp'⟩ | ⟨hp, hp'⟩⟩ | ⟨he, -, hp', hp⟩
    · exact absurd he hne
    · exact .inl ⟨hp, hp', he⟩
    · exact .inr (.inl ⟨hp, hp', he⟩)
    · exact .inr (.inr ⟨hp, hp', he⟩)
  · intro hne
    rcases row_fault hrow with ⟨hc, hf, -⟩ | ⟨hp, hf, hs⟩
    · exact absurd hne (by simp [hc, hf])
    · refine ⟨?_, hp, hf⟩
      rcases hs with ⟨hs, -⟩ | ⟨hs, -⟩
      · simp [hs]
      · exact ne_of_isTransaction hs rfl

/-! ### The request port (R18, R28) -/

theorem tReqValid_iff : s.outputs.tReqValid = true ↔ s.phase.isTransaction = true ∧ s.tpend = false := by
  simp [State.outputs, State.tReqValid]

/-- "one of the four transaction phases" (R18). -/
theorem isTransaction_iff {p : Phase} : p.isTransaction = true ↔ p = .vrw ∨ p = .vrr ∨ p = .prr ∨ p = .mxw := by
  cases p <;> decide

/-- An offered request that the transport is ready for is accepted and recorded (R46). -/
theorem step_requested (hp : s.phase.isTransaction = true) (ht : s.tpend = false) (hy : s.inputs.tReqReady = true)
    (hr : s.inputs.rst = false) :
    ∃ r, step s = .next ({ s with tpend := true, record := s.record ++ [.request r] } : State).tick := by
  have hsome : s.drivenRequest.isSome = true := by rw [drivenRequest_isSome, hp]
  obtain ⟨r, hd⟩ := Option.isSome_iff_exists.mp hsome
  exact ⟨r, row_step hr (.requested r hp ht hy hd)⟩

/-- A step that records a request has accepted it on the port (R28). -/
theorem accepted_of_recorded {r : Request} (h : step s = .next t) (hrec : t.record = s.record ++ [.request r]) :
    s.outputs.tReqValid = true ∧ s.inputs.tReqReady = true ∧ s.inputs.rst = false := by
  rcases step_cases h with ⟨-, rfl⟩ | ⟨hr, u, hrow, rfl⟩
  · simp at hrec
  · rw [State.tick_record] at hrec
    rcases row_record hrow with e | ⟨r', -, hd, ht, hy, -, -⟩ | ⟨x, e, -, -, -⟩
    · simp [e] at hrec
    · have hp : s.phase.isTransaction = true := by rw [← drivenRequest_isSome, hd]; rfl
      exact ⟨tReqValid_iff.mpr ⟨hp, ht⟩, hy, hr⟩
    · simp [e] at hrec

/-- Settles O21: the columns of R28 phase by phase; a request not accepted waits; an accepted one is recorded. -/
theorem requestPortsFollowTheTable : Obligations.RequestPortsFollowTheTable := by
  intro s
  refine ⟨tReqValid_iff.trans (and_congr_left' isTransaction_iff), ?_, ?_, ?_⟩
  · cases hp : s.phase <;> simp only [State.outputs, State.requestPorts, State.drivenRequest, hp] <;> rfl
  · intro t hv hr hy h
    obtain ⟨hp, ht⟩ := tReqValid_iff.mp hv
    rw [step_notReady hr hy hp ht] at h
    cases h
    exact ⟨hv, rfl⟩
  · intro t h
    constructor
    · rintro ⟨r, hrec⟩
      exact accepted_of_recorded h hrec
    · rintro ⟨hv, hy, hr⟩
      obtain ⟨hp, ht⟩ := tReqValid_iff.mp hv
      obtain ⟨r, e⟩ := step_requested hp ht hy hr
      rw [e] at h
      cases h
      exact ⟨r, rfl⟩

/-- Settles O57: what `TPEND` = 1 after a row means is `row_tpend`, and with the invariant `row_pending`. -/
theorem pendingIsClearedOnPhaseChange : Obligations.PendingIsClearedOnPhaseChange := by
  refine ⟨?_, ?_, ?_⟩
  · intro s t hinv h hne
    rcases step_cases h with ⟨-, rfl⟩ | ⟨-, u, hrow, rfl⟩
    · rfl
    · apply Bool.eq_false_of_not_eq_true
      intro ht
      rcases row_pending hinv hrow ht with rfl | ⟨r, -, -, rfl⟩
      · exact hne rfl
      · exact hne rfl
  · intro s t h hs ht
    rcases step_cases h with ⟨-, rfl⟩ | ⟨hr, u, hrow, rfl⟩
    · cases ht
    · rcases row_tpend hrow ht with ⟨r, hp, -, hy, -, rfl⟩ | ⟨hs', -⟩
      · exact ⟨hp, hr, hy, rfl⟩
      · rw [hs] at hs'
        cases hs'
  · intro s hp
    refine ⟨fun ht => tReqValid_iff.mpr ⟨hp, ht⟩, fun ht => ⟨?_, fun hr hv => step_notAnswered hr hv hp ht⟩⟩
    simp [State.outputs, State.tReqValid, ht]

/-! ### The pins looked at (R30) -/

/-- `s` with the pins `x` in the coming cycle and those of `rest` after it. -/
def State.withPins (s : State) (x : Inputs) (rest : List Inputs) : State := { s with script := x :: rest }

section
variable {x y : Inputs} {rest : List Inputs}

@[simp] theorem State.withPins_inputs : (s.withPins x rest).inputs = x := rfl

theorem looksAt_cmdValid (hr : x.rst = false) (hp : s.phase = .idle) : (s.looksAt x).cmdValid = x.cmdValid := by
  simp [State.looksAt, hr, hp]

theorem looksAt_cmdWord (hr : x.rst = false) (hp : s.phase = .idle) (hv : x.cmdValid = true) :
    (s.looksAt x).cmdWord = x.cmdWord := by
  simp [State.looksAt, hr, hp, hv]

theorem looksAt_respReady (hr : x.rst = false) (hp : s.phase = .rsp) : (s.looksAt x).respReady = x.respReady := by
  simp [State.looksAt, hr, hp]

theorem looksAt_tReqReady (hr : x.rst = false) (hp : s.phase.isTransaction = true) (ht : s.tpend = false) :
    (s.looksAt x).tReqReady = x.tReqReady := by
  simp [State.looksAt, hr, hp, ht]

theorem looksAt_tRspValid (hr : x.rst = false) (hp : s.phase.isTransaction = true) (ht : s.tpend = true) :
    (s.looksAt x).tRspValid = x.tRspValid := by
  simp [State.looksAt, hr, hp, ht]

theorem looksAt_tRspErr (hr : x.rst = false) (hp : s.phase.isTransaction = true) (ht : s.tpend = true)
    (hv : x.tRspValid = true) : (s.looksAt x).tRspErr = x.tRspErr := by
  simp [State.looksAt, hr, hp, ht, hv]

theorem looksAt_tRspRdata (hr : x.rst = false) (hp : s.phase = .vrr ∨ s.phase = .prr) (ht : s.tpend = true)
    (hv : x.tRspValid = true) (he : x.tRspErr = false) : (s.looksAt x).tRspRdata = x.tRspRdata := by
  simp [State.looksAt, hr, hp, ht, hv, he]

/-- An offer depends on the readiness alone. -/
theorem offer_withPins (h : x.tReqReady = y.tReqReady) :
    (offer (s.withPins x rest)).tick = (offer (s.withPins y rest)).tick := by
  have hd : ∀ z, (s.withPins z rest).drivenRequest = s.drivenRequest := fun _ => rfl
  unfold offer
  rw [hd, hd]
  cases s.drivenRequest with
  | none => rfl
  | some r => cases hy : y.tReqReady <;> simp [h, hy] <;> rfl

/-- A transaction's cycle depends on the pins looked at alone when its success does (R46). -/
theorem transactionCycle_looksAt {k : State → Result} (hr : x.rst = false) (hp : s.phase.isTransaction = true)
    (hk : s.tpend = true → x.tRspValid = true → x.tRspErr = false →
      advance (k (s.withPins x rest)) = advance (k (s.withPins (s.looksAt x) rest))) :
    advance (transactionCycle k (s.withPins x rest)) =
      advance (transactionCycle k (s.withPins (s.looksAt x) rest)) := by
  rcases transactionCycle_cases k (s.withPins x rest) with ⟨ht, e⟩ | ⟨ht, hv, e⟩ | ⟨ht, hv, he, e⟩ | ⟨ht, hv, he, e⟩ <;>
    rw [e]
  · rw [transactionCycle_offering (s := s.withPins (s.looksAt x) rest) ht, advance_next, advance_next,
      offer_withPins (looksAt_tReqReady hr hp ht).symm]
  · have hv' := (looksAt_tRspValid hr hp ht).trans hv
    rw [transactionCycle_waiting (s := s.withPins (s.looksAt x) rest) ht hv']
    rfl
  · have hv' := (looksAt_tRspValid hr hp ht).trans hv
    have he' := (looksAt_tRspErr hr hp ht hv).trans he
    rw [transactionCycle_failed (s := s.withPins (s.looksAt x) rest) ht hv' he']
    rfl
  · have hv' := (looksAt_tRspValid hr hp ht).trans hv
    have he' := (looksAt_tRspErr hr hp ht hv).trans he
    rw [transactionCycle_ok (s := s.withPins (s.looksAt x) rest) ht hv' he']
    exact hk ht hv he

/-- A wait looks at no pin but `rst` (R30). -/
theorem delayCycle_withPins {f : State → State}
    (hf : (f (s.withPins x rest)).tick = (f (s.withPins y rest)).tick) :
    (delayCycle f (s.withPins x rest)).tick = (delayCycle f (s.withPins y rest)).tick := by
  change (if s.dcnt = 0#32 then _ else _ : State).tick = (if s.dcnt = 0#32 then _ else _ : State).tick
  split
  · exact hf
  · rfl

/-- The response phase looks at `resp_ready` alone (R30). -/
theorem responseCycle_withPins (h : x.respReady = y.respReady) :
    (responseCycle (s.withPins x rest)).tick = (responseCycle (s.withPins y rest)).tick := by
  cases hy : y.respReady <;> simp [responseCycle, h, hy] <;> rfl

/-- A write's transaction sees the pins looked at alone, its answer carrying no byte (R30, R42, R44). -/
theorem writeCycle_looksAt {f : State → State} (hr : x.rst = false) (hp : s.phase.isTransaction = true)
    (hf : ∀ v : State, (f (v.withPins x rest)).tick = (f (v.withPins (s.looksAt x) rest)).tick) :
    advance (writeCycle f (s.withPins x rest)) = advance (writeCycle f (s.withPins (s.looksAt x) rest)) :=
  transactionCycle_looksAt hr hp fun _ _ _ => congrArg Host.Outcome.next (hf (s.log (.answer .ok)))

/-- A delivery rule that does not look at the pins. -/
def PinBlind (f : Byte → State → Result) : Prop :=
  ∀ (d : Byte) (s : State) (x y : Inputs) (rest : List Inputs),
    advance (f d (s.withPins x rest)) = advance (f d (s.withPins y rest))

theorem deliverPair_pinBlind (p : Phase) : PinBlind (deliverPair p) := by
  intro d s x y rest
  have hd : ∀ z, (s.withPins z rest).dstep = s.dstep := fun _ => rfl
  cases h : s.dstep with
  | true => rw [deliverPair_second p d ((hd x).trans h), deliverPair_second p d ((hd y).trans h)]; rfl
  | false => rw [deliverPair_first p d ((hd x).trans h), deliverPair_first p d ((hd y).trans h)]; rfl

theorem virtualDelivery_pinBlind (c : Option Instr) : PinBlind (c.elim noDelivery virtualDelivery) := by
  intro d s x y rest
  cases c with
  | none => rfl
  | some i =>
    cases i with
    | decv lo hi => exact deliverPair_pinBlind .vrw d s x y rest
    | _ => rfl

theorem directDelivery_pinBlind (c : Option Instr) : PinBlind (c.elim noDelivery directDelivery) := by
  intro d s x y rest
  cases c with
  | none => rfl
  | some i =>
    cases i with
    | decp lo hi => exact deliverPair_pinBlind .prr d s x y rest
    | _ => rfl

/-- A read's transaction sees the pins looked at alone, the byte included (R30, R43). -/
theorem readCycle_looksAt {f : Byte → State → Result} (hf : PinBlind f) (hr : x.rst = false)
    (hp : s.phase = .vrr ∨ s.phase = .prr) :
    advance (readCycle f (s.withPins x rest)) = advance (readCycle f (s.withPins (s.looksAt x) rest)) := by
  refine transactionCycle_looksAt hr (isTransaction_iff.mpr (by tauto)) fun ht hv he => ?_
  simp only [State.withPins_inputs, looksAt_tRspRdata hr hp ht hv he]
  exact hf x.tRspRdata (s.log (.answer (.byte x.tRspRdata))) x (s.looksAt x) rest

/-- An idle block looks at the command port alone (R30). -/
theorem step_idle_looksAt (hr : x.rst = false) (hp : s.phase = .idle) :
    step (s.withPins x rest) = step (s.withPins (s.looksAt x) rest) := by
  have hphase : ∀ {z}, (s.withPins z rest).phase = .idle := hp
  have hr' : (s.withPins (s.looksAt x) rest).inputs.rst = false := hr
  have hv := looksAt_cmdValid hr hp
  rcases step_idle_cases (s := s.withPins x rest) hp hr with ⟨hx, e⟩ | ⟨hx, hd, e⟩ | ⟨i, hx, hd, e⟩ <;> rw [e]
  · rw [step_idle_none hphase hr' (hv.trans hx)]
    rfl
  · have hw := looksAt_cmdWord hr hp hx
    rw [step_idle_illegal hphase hr' (hv.trans hx) ((congrArg decode hw).trans hd), State.withPins_inputs,
      State.withPins_inputs, hw]
    rfl
  · have hw := looksAt_cmdWord hr hp hx
    rw [step_idle_command hphase hr' (hv.trans hx) ((congrArg decode hw).trans hd)]
    rfl

/-- A step sees the pins only through the mask of R30. -/
theorem step_looksAt (s : State) (x : Inputs) (rest : List Inputs) :
    step (s.withPins x rest) = step (s.withPins (s.looksAt x) rest) := by
  have hrst : ∀ {b}, x.rst = b → (s.withPins (s.looksAt x) rest).inputs.rst = b := id
  have hphase : ∀ {p z}, s.phase = p → (s.withPins z rest).phase = p := id
  cases hr : x.rst with
  | true =>
    rw [step_rst (s := s.withPins x rest) hr, step_rst (hrst hr)]
    rfl
  | false =>
    have hx : (s.withPins x rest).inputs.rst = false := hr
    cases hp : s.phase with
    | idle => exact step_idle_looksAt hr hp
    | vrw =>
      rw [step_vrw (hphase hp) hx, step_vrw (hphase hp) (hrst hr)]
      exact writeCycle_looksAt hr (by rw [hp]; rfl) fun _ => rfl
    | dly1 =>
      rw [step_dly1 (hphase hp) hx, step_dly1 (hphase hp) (hrst hr)]
      exact congrArg _ (delayCycle_withPins rfl)
    | dly2 =>
      rw [step_dly2 (hphase hp) hx, step_dly2 (hphase hp) (hrst hr)]
      exact congrArg _ (delayCycle_withPins rfl)
    | vrr =>
      rw [step_vrr (hphase hp) hx, step_vrr (hphase hp) (hrst hr)]
      exact readCycle_looksAt (virtualDelivery_pinBlind _) hr (.inl hp)
    | prr =>
      rw [step_prr (hphase hp) hx, step_prr (hphase hp) (hrst hr)]
      exact readCycle_looksAt (directDelivery_pinBlind _) hr (.inr hp)
    | mxw =>
      rw [step_mxw (hphase hp) hx, step_mxw (hphase hp) (hrst hr)]
      exact writeCycle_looksAt hr (by rw [hp]; rfl) fun _ => rfl
    | rsp =>
      rw [step_rsp (hphase hp) hx, step_rsp (hphase hp) (hrst hr)]
      exact congrArg _ (responseCycle_withPins (looksAt_respReady hr hp).symm)
    | flt =>
      rw [step_flt (hphase hp) hx, step_flt (hphase hp) (hrst hr)]
      rfl

end

/-- Settles O44: two sets of pins with one view give the step of that view. -/
theorem ignoredInputsDoNotMatter : Obligations.IgnoredInputsDoNotMatter := by
  intro s x y rest h
  calc step (s.withPins x rest) = step (s.withPins (s.looksAt x) rest) := step_looksAt s x rest
    _ = step (s.withPins (s.looksAt y) rest) := by rw [h]
    _ = step (s.withPins y rest) := (step_looksAt s y rest).symm

/-! ### Reset and the outputs -/

/-- Settles O1: `State.resetBlock` writes R33's values, and the outputs are functions of them. -/
theorem rstCycleLeavesTheResetState : Obligations.RstCycleLeavesTheResetState := by
  intro s hr
  exact ⟨s.resetBlock.tick, step_rst hr, rfl, rfl⟩

/-- Settles O2, field by field of `State.reset`. -/
theorem resetStateIsTheStatedOne : Obligations.ResetStateIsTheStatedOne :=
  ⟨rfl, rfl, rfl, rfl, rfl, rfl, rfl, rfl, rfl, rfl, rfl, rfl, rfl, rfl⟩

/-- Settles O17: the two cases of `responseCycle`. -/
theorem responseIsHeldUntilTaken : Obligations.ResponseIsHeldUntilTaken := by
  intro s
  refine ⟨by simp [State.outputs, State.respValid], rfl, fun hp hr => ?_⟩
  rw [step_rsp hp hr]
  rcases responseCycle_cases s with ⟨hy, e⟩ | ⟨hy, e⟩ <;> rw [e, hy] <;> rfl

/-- Settles O20, phase by phase; the numbers are finite tables. -/
theorem statusOutputsFollowThePhase : Obligations.StatusOutputsFollowThePhase := by
  refine ⟨fun s => ?_, by decide, by decide⟩
  cases hp : s.phase <;> simp [State.outputs, State.busy, State.fault, State.cmdReady, hp]

/-- Settles O22: `CUR` is `B` exactly where `State.isPair` holds and `DSTEP` is 0. -/
theorem currentAddressOfTheRead : Obligations.CurrentAddressOfTheRead := by
  intro s
  constructor
  · rintro ⟨ho, hd⟩
    have hpair : s.isPair = true := by simpa [State.isPair, opDECV, opDECP] using ho
    simp [State.cur, hpair, hd]
  · intro h
    have hnot : (s.isPair && !s.dstep) = false := by
      simpa [State.isPair, opDECV, opDECP] using h
    simp [State.cur, hnot]

end Sys2Proof.Machine
end

