-- ==== Sys2Proof/Proofs/Memory.lean ====
section
/-! PROOF. The memory family (20_memory.md): the requests R40 lists and the one event a row of the table adds to the
record; then the answers of the reference devices (R53, R54) along the records of the read commands. -/

namespace Sys2Proof.Machine

variable {s t u : State} {p : Params} {f g : Fixture}

/-! ### The requests and the answers recorded -/

/-- A transmitted Register Address is a number below 128 (R63, R82, R104). -/
theorem transmitted_lt (b : Byte) : (transmitted b).toNat < 128 :=
  BitVec.toNat_lt_of_msb_false (transmitted_msb b)

/-- The requests a phase drives are the four of R40. -/
theorem drivenRequest_cases {r : Request} (h : s.drivenRequest = some r) :
    r = .writeByteData s.params.devVr s.params.wreg (transmitted s.cur) ∨
    r = .readByteData s.params.devVr s.params.rreg ∨
    r = .readByteData s.params.devPr (transmitted s.cur) ∨
    r = .writeByte s.params.devMux s.a := by
  unfold State.drivenRequest at h
  split at h
  · exact .inl (Option.some.inj h).symm
  · exact .inr (.inl (Option.some.inj h).symm)
  · exact .inr (.inr (.inl (Option.some.inj h).symm))
  · exact .inr (.inr (.inr (Option.some.inj h).symm))
  all_goals cases h

/-- A row that records an answer takes it from the pins of this cycle: the error line, and for a read the byte (R30,
R46). -/
theorem row_answer {x : Answer} (h : TableRow s u) (hrec : u.record = s.record ++ [.answer x]) :
    (x = .err ↔ s.inputs.tRspErr = true) ∧ ∀ d, x = .byte d → d = s.inputs.tRspRdata := by
  cases h with
  | failed _ _ ha =>
    obtain ⟨-, he⟩ := ha
    obtain rfl : Answer.err = x := by simpa using hrec
    simp [he]
  | vrwOk _ _ ha | mxwOk _ _ ha =>
    obtain ⟨-, he⟩ := ha
    obtain rfl : Answer.ok = x := by simpa using hrec
    simp [he]
  | vrrSingle _ _ ha | vrrFirst _ _ ha | vrrSecond _ _ ha | prrSingle _ _ ha | prrFirst _ _ ha | prrSecond _ _ ha =>
    obtain ⟨-, he⟩ := ha
    obtain rfl : Answer.byte s.inputs.tRspRdata = x := by simpa using hrec
    simp [he]
  | _ => simp at hrec

/-- Settles O49: a cycle of reset records nothing; otherwise the event is the row's (`row_record`), a request one of
`drivenRequest_cases` and an answer the pins' (`row_answer`). -/
theorem recordGrowsByOneEvent : Obligations.RecordGrowsByOneEvent := by
  intro s t h
  rcases step_cases h with ⟨-, rfl⟩ | ⟨-, u, hrow, rfl⟩
  · exact .inl rfl
  · rcases row_record hrow with he | ⟨r, he, hd, ht, hy, hu, -⟩ | ⟨x, he, ht, hv, hu⟩
    · exact .inl he
    · refine .inr (.inl ⟨r, he, ht, hu, hy, ?_⟩)
      rcases drivenRequest_cases hd with rfl | rfl | rfl | rfl
      · exact .inl ⟨rfl, rfl, rfl, transmitted_lt _⟩
      · exact .inr (.inl ⟨rfl, rfl, rfl⟩)
      · exact .inr (.inr (.inl ⟨rfl, rfl, transmitted_lt _⟩))
      · exact .inr (.inr (.inr ⟨rfl, rfl⟩))
    · obtain ⟨herr, hbyte⟩ := row_answer hrow he
      exact .inr (.inr ⟨x, he, ht, hu, hv, herr, hbyte⟩)

/-! ### The reference devices -/

/-- The mask of a channel selects that channel's accelerometer (R54, R133). -/
theorem channelOf_channelMask (k : Fin nchan) : channelOf (channelMask k) = some k := by
  revert k
  decide

/-- The number a device sees is the operand's low seven bits: `a mod 128` (R63, R82). -/
theorem transmitted_setWidth (a : Byte) : (transmitted a).setWidth 7 = a.setWidth 7 := by
  rw [transmitted, BitVec.setWidth_and, show (0x7F#8).setWidth 7 = BitVec.allOnes 7 from rfl, BitVec.and_allOnes]

/-- The devices would have given an answer exactly when it is theirs, and go on from their next state. -/
theorem replay_answered {r : Request} {x y : Answer} {h : List Event} (hr : f.respond p r = some (g, y)) :
    f.replay p (.request r :: .answer x :: h) = if x = y then g.replay p h else none := by
  rw [Fixture.replay, hr]

/-- The write of a register number sets `PTR` (R53). -/
theorem respond_writeNumber (p : Params) (f : Fixture) (a : Byte) :
    f.respond p (.writeByteData p.devVr p.wreg (transmitted a)) = some ({ f with ptr := a.setWidth 7 }, .ok) := by
  simp [Fixture.respond, Request.writeByteData, transmitted_msb, transmitted_setWidth]

/-- The read of `RREG` answers `VR[PTR]` (R53). -/
theorem respond_readNumber (p : Params) (f : Fixture) :
    f.respond p (.readByteData p.devVr p.rreg) = some (f, .byte (f.virtualByte f.ptr)) := by
  simp [Fixture.respond, Request.readByteData]

/-- The multiplexer takes the mask (R54). -/
theorem respond_select (p : Params) (f : Fixture) (m : Byte) :
    f.respond p (.writeByte p.devMux m) = some ({ f with muxsel := m }, .ok) := by
  simp [Fixture.respond, Request.writeByte]

/-- A direct read answers the register of the selected accelerometer, where `DEV_PR` is not `DEV_VR` (R54). -/
theorem respond_direct {k : Fin nchan} (hdev : p.devPr ≠ p.devVr) (hk : f.muxsel = channelMask k) (a : Byte) :
    f.respond p (.readByteData p.devPr (transmitted a)) = some (f, .byte (f.physicalByte k (a.setWidth 7))) := by
  simp [Fixture.respond, Request.readByteData, hdev, hk, channelOf_channelMask, transmitted_msb, transmitted_setWidth]

/-- The devices along a virtual-register sequence: the pointer is set, then its register is read (R53, R80). -/
theorem replay_virtualEvents {a d : Byte} (h : f.replay p (virtualEvents p a d) = some g) :
    d = f.virtualByte (a.setWidth 7) ∧ g = { f with ptr := a.setWidth 7 } := by
  rw [virtualEvents, replay_answered (respond_writeNumber p f a), if_pos rfl,
    replay_answered (respond_readNumber p _)] at h
  split_ifs at h with hd
  cases hd
  cases h
  exact ⟨rfl, rfl⟩

/-- The devices along a channel select and a direct read: the mask is set, then the selected register is read (R54,
R100, R130). -/
theorem replay_selectedRead {k : Fin nchan} {a d : Byte} (hdev : p.devPr ≠ p.devVr)
    (h : f.replay p (selectEvents p (channelMask k) ++ directEvents p a d) = some g) :
    d = f.physicalByte k (a.setWidth 7) ∧ g = { f with muxsel := channelMask k } := by
  rw [selectEvents, directEvents, List.cons_append, List.cons_append, List.nil_append,
    replay_answered (respond_select p f _), if_pos rfl, replay_answered (respond_direct hdev rfl a)] at h
  split_ifs at h with hd
  cases hd
  cases h
  exact ⟨rfl, rfl⟩

/-- Settles O51: the two records by `replay_virtualEvents` and `replay_selectedRead`. -/
theorem referenceDevicesReturnTheirBytes : Obligations.ReferenceDevicesReturnTheirBytes := by
  constructor
  · intro p f g a d h
    obtain ⟨hd, rfl⟩ := replay_virtualEvents h
    exact ⟨hd, rfl⟩
  · intro p f g k a d hdev h
    obtain ⟨hd, rfl⟩ := replay_selectedRead hdev h
    exact ⟨hd, rfl⟩

end Sys2Proof.Machine
end

