-- ==== Sys2Proof/Proofs/Encoding.lean ====
section
/-! PROOF. The encoding family (30_encoding.md): the decoder and the encoder are inverse to each other on the legal words,
the rows of the opcode map are told apart by their opcode, the acceptance of a word is the row of the transition table its
mask names, and of a Register Address seven bits go out. -/

namespace Sys2Proof

/-! ### The decoder and the encoder (R60 to R67) -/

/-- The words no row of the opcode map selects, by their fields (R65). -/
theorem decode_eq_none_iff (w : CmdWord) :
    decode w = none ↔
      ¬(opcField w = 0x01#8 ∧ bField w = 0x00#8) ∧ ¬(opcField w = 0x02#8 ∧ bField w = 0x00#8) ∧
      ¬(opcField w = 0x03#8 ∧ bField w = 0x00#8) ∧ opcField w ≠ 0x04#8 ∧ opcField w ≠ 0x05#8 := by
  rw [decode_eq]
  split_ifs <;> simp_all

/-- A mask acts on the opcode byte of a word alone. -/
theorem opcField_and (w m : CmdWord) : opcField (w &&& m) = opcField w &&& opcField m :=
  BitVec.extractLsb'_and

/-- A word that a row selects has the row's opcode byte, since every mask keeps that byte whole (R62). -/
theorem opcField_of_selected {w : CmdWord} {r : OpRow} (hr : r ∈ opcodeMap) (h : w &&& r.mask = r.pattern) :
    opcField w = opcField r.pattern := by
  have hmask : ∀ r ∈ opcodeMap, opcField r.mask = BitVec.allOnes 8 := by decide
  rw [← h, opcField_and, hmask r hr, BitVec.and_allOnes]

/-- The opcode byte names the row (R62). -/
theorem opcodeMap_inj : ∀ r ∈ opcodeMap, ∀ q ∈ opcodeMap, opcField r.pattern = opcField q.pattern → r = q := by
  decide

end Sys2Proof

namespace Sys2Proof.Machine

variable {s t : State} {i : Instr}

/-- Settles O28: `decode_encode`, the operands being bytes whatever the two checks on the line say. -/
theorem decodeReadsEveryEncoding : Obligations.DecodeReadsEveryEncoding :=
  fun i _ => decode_encode i

/-- Settles O29: `encode_of_decode`. -/
theorem encodeWritesEveryLegalWord : Obligations.EncodeWritesEveryLegalWord :=
  fun _ _ => encode_of_decode

/-- Settles O27: `decode_eq_none_iff`, the opcode bytes read as numbers. -/
theorem illegalWordsExactly : Obligations.IllegalWordsExactly := by
  intro w
  rw [decode_eq_none_iff]
  simp only [opcField, bField, ne_eq, ← BitVec.toNat_inj, BitVec.toNat_ofNat]
  omega

/-- Settles O30: both rows have the opcode byte of the word, and that byte names the row. -/
theorem opcodeRowsAreDisjoint : Obligations.OpcodeRowsAreDisjoint := by
  intro w r q hr hq hwr hwq
  exact opcodeMap_inj r hr q hq ((opcField_of_selected hr hwr).symm.trans (opcField_of_selected hq hwq))

/-- Settles O31: `packWord_toNat` at the five opcodes. -/
theorem wordsOfTheSyntax : Obligations.WordsOfTheSyntax := by
  intro x y
  simp only [encode, packWord_toNat, opRDVR, opRDPR, opSELCH, opDECV, opDECP, BitVec.reduceToNat, true_and]
  omega

/-- Settles O26: seven closed words. -/
theorem sampleWordsDecode : Obligations.SampleWordsDecode := by
  unfold Obligations.SampleWordsDecode
  decide

/-! ### The acceptance of a word (R64, R71) -/

/-- The first phase of every command makes a transaction. -/
theorem firstPhase_isTransaction (i : Instr) : (firstPhase i).isTransaction = true := by cases i <;> rfl

/-- After the acceptance of a legal word the first request is offered (R64). -/
theorem tReqValid_of_accepted (hp : s.phase = .idle) (hr : s.inputs.rst = false) (hv : s.inputs.cmdValid = true)
    (hd : decode s.inputs.cmdWord = some i) (h : step s = .next t) : t.outputs.tReqValid = true := by
  rw [step_accepted hp hr hv hd] at h
  cases h
  exact tReqValid_iff.mpr ⟨firstPhase_isTransaction i, rfl⟩

/-- Settles O4: each branch of R64 is a row of the transition table, and a row is a step (`row_step`). -/
theorem everyWordIsDispatched : Obligations.EveryWordIsDispatched := by
  intro s hp hr hv
  refine ⟨?_, fun ⟨i, hd⟩ t h => tReqValid_of_accepted hp hr hv hd h⟩
  split_ifs with h1 h2 h3 h4 h5
  · exact row_step hr (.idleVirtual hp hv (.inl h1))
  · exact row_step hr (.idleDirect hp hv (.inl h2))
  · exact row_step hr (.idleSelect hp hv h3)
  · exact row_step hr (.idleVirtual hp hv (.inr h4))
  · exact row_step hr (.idleDirect hp hv (.inr h5))
  · exact row_step hr (.idleIllegal hp hv h1 h2 h3 h4 h5)

/-- Settles O6: `step_idle_none`, `State.tick` being the environment's move. -/
theorem idleWithoutCommandHolds : Obligations.IdleWithoutCommandHolds :=
  fun _ => step_idle_none

/-! ### The operands on the bus (R63, R82, R104, R133) -/

/-- A Register Address goes out modulo 128 (R63). -/
theorem transmitted_toNat (x : Byte) : (transmitted x).toNat = x.toNat % 128 := by
  rw [transmitted, BitVec.toNat_and]
  exact Nat.and_two_pow_sub_one_eq_mod x.toNat 7

/-- Two operands that agree in bits 6 to 0 go out as the same Register Address (R63). -/
theorem transmitted_congr {x y : Byte} (h : x.toNat % 128 = y.toNat % 128) : transmitted x = transmitted y := by
  apply BitVec.eq_of_toNat_eq
  rw [transmitted_toNat, transmitted_toNat, h]

/-- So does `CUR`, whichever operand it is (R29). -/
theorem transmitted_cur_congr {x y : Byte} (ha : x.toNat % 128 = s.a.toNat % 128)
    (hb : y.toNat % 128 = s.b.toNat % 128) :
    transmitted ({ s with a := x, b := y } : State).cur = transmitted s.cur := by
  change transmitted (if s.isPair && !s.dstep then y else x) = transmitted (if s.isPair && !s.dstep then s.b else s.a)
  split_ifs
  · exact transmitted_congr hb
  · exact transmitted_congr ha

theorem drivenRequest_vrw (hp : s.phase = .vrw) :
    s.drivenRequest = some (.writeByteData s.params.devVr s.params.wreg (transmitted s.cur)) := by
  simp [State.drivenRequest, hp]

theorem drivenRequest_prr (hp : s.phase = .prr) :
    s.drivenRequest = some (.readByteData s.params.devPr (transmitted s.cur)) := by
  simp [State.drivenRequest, hp]

theorem drivenRequest_mxw (hp : s.phase = .mxw) : s.drivenRequest = some (.writeByte s.params.devMux s.a) := by
  simp [State.drivenRequest, hp]

/-- Outside `MXW` the request depends on the operands only through the transmitted `CUR` (R28). -/
theorem drivenRequest_congr (hphase : t.phase = s.phase) (hparams : t.params = s.params) (hp : s.phase ≠ .mxw)
    (hc : transmitted t.cur = transmitted s.cur) : t.drivenRequest = s.drivenRequest := by
  unfold State.drivenRequest
  rw [hphase, hparams, hc]
  cases h : s.phase with
  | mxw => exact absurd h hp
  | _ => rfl

/-- Settles O32: the request outside `MXW` carries `transmitted CUR`, a number below 128, and in `MXW` it carries `A`. -/
theorem addressBitSevenIsDropped : Obligations.AddressBitSevenIsDropped := by
  refine ⟨transmitted_toNat, fun s x y hp ha hb => ?_, ?_, ?_, ?_⟩
  · exact drivenRequest_congr rfl rfl hp (transmitted_cur_congr ha hb)
  · intro s r hp h
    cases (drivenRequest_vrw hp).symm.trans h
    exact transmitted_lt s.cur
  · intro s r hp h
    cases (drivenRequest_prr hp).symm.trans h
    exact transmitted_lt s.cur
  · intro s r hp h
    cases (drivenRequest_mxw hp).symm.trans h
    rfl

end Sys2Proof.Machine
end

