-- ==== Sys2Proof/Proofs/VirtualRead.lean ====
section
/-! PROOF. The virtual-register read family (40_virtual_register_read.md): a cycle of a command in progress is a row of
the transition table, so each answer and each wait is a row; the cycles of `VRW`, `DLY1`, `DLY2` and `VRR` are put
together to the run of `RDVR`, and what the rows leave unchanged is its frame. -/

namespace Sys2Proof.Machine

variable {s t u : State} {i : Instr}

/-! ### One cycle of a command in progress (R34) -/

theorem phaseCycle_vrr {v d : Byte → State → Result} (hp : s.phase = .vrr) : phaseCycle v d s = readCycle v s := by
  simp [phaseCycle, hp]

theorem phaseCycle_prr {v d : Byte → State → Result} (hp : s.phase = .prr) : phaseCycle v d s = readCycle d s := by
  simp [phaseCycle, hp]

theorem readCycle_ok {k : Byte → State → Result} (ht : s.tpend = true) (ha : s.answerOk) :
    readCycle k s = k s.inputs.tRspRdata (s.log (.answer (.byte s.inputs.tRspRdata))) := by
  obtain ⟨hv, he⟩ := ha
  rw [readCycle, transactionCycle_ok ht hv he]

/-- What a pair decode's delivery leads to, as the table writes it (R114, R115). -/
theorem deliverPair_next {p : Phase} {d : Byte} (h : deliverPair p d s = .next u) :
    (s.dstep = false ∧ u = deliverFirst p d s) ∨ (s.dstep = true ∧ u = complete (s.hi ++ d) s) := by
  cases hd : s.dstep with
  | false =>
    rw [deliverPair_first p d hd] at h
    cases h
    exact .inl ⟨rfl, rfl⟩
  | true =>
    rw [deliverPair_second p d hd] at h
    cases h
    exact .inr ⟨rfl, rfl⟩

/-- A byte delivered in `VRR` to the command latched is a row of the table (R87). -/
theorem virtualDelivery_row (hp : s.phase = .vrr) (ht : s.tpend = true) (ha : s.answerOk)
    (hc : s.latchedCommand = some i)
    (h : virtualDelivery i s.inputs.tRspRdata (s.log (.answer (.byte s.inputs.tRspRdata))) = .next u) :
    TableRow s u := by
  have ho := opc_of_latchedCommand hc
  cases i with
  | rdvr a =>
    rw [virtualDelivery, deliverByte_eq] at h
    cases h
    exact .vrrSingle hp ht ha ho
  | decv lo hi =>
    rcases deliverPair_next h with ⟨hd, rfl⟩ | ⟨hd, rfl⟩
    · exact .vrrFirst hp ht ha ho hd
    · exact .vrrSecond hp ht ha ho hd
  | rdpr a | selch m | decp lo hi => cases h

/-- A byte delivered in `PRR` to the command latched is a row of the table (R102). -/
theorem directDelivery_row (hp : s.phase = .prr) (ht : s.tpend = true) (ha : s.answerOk)
    (hc : s.latchedCommand = some i)
    (h : directDelivery i s.inputs.tRspRdata (s.log (.answer (.byte s.inputs.tRspRdata))) = .next u) :
    TableRow s u := by
  have ho := opc_of_latchedCommand hc
  cases i with
  | rdpr a =>
    rw [directDelivery, deliverByte_eq] at h
    cases h
    exact .prrSingle hp ht ha ho
  | decp lo hi =>
    rcases deliverPair_next h with ⟨hd, rfl⟩ | ⟨hd, rfl⟩
    · exact .prrFirst hp ht ha ho hd
    · exact .prrSecond hp ht ha ho hd
  | rdvr a | selch m | decv lo hi => cases h

/-- With a command in progress the block is not idle. -/
theorem phase_ne_idle_of_serving (hs : s.serving i) : s.phase ≠ .idle := by
  obtain ⟨-, hrun⟩ := hs
  intro hp
  rw [hp, runsIn_idle] at hrun
  cases hrun

/-- WHAT `exec` CAN DO for the command in progress: a row of the table, whatever `rst` is. -/
theorem exec_row (hs : s.serving i) (h : exec i s = .next u) : TableRow s u := by
  have hidle := phase_ne_idle_of_serving hs
  have hc := latchedCommand_of_serving hs
  rw [exec_busy i hidle] at h
  cases hp : s.phase with
  | idle => exact absurd hp hidle
  | vrw =>
    simp only [phaseCycle, hp, writeNumberCycle, writeCycle] at h
    refine transaction_row (by rw [hp]; rfl) (fun v ht ha hv => ?_) h
    cases hv
    exact .vrwOk hp ht ha
  | dly1 =>
    simp only [phaseCycle, hp] at h
    cases h
    exact wait_row (.inl hp) (.dly1End hp)
  | dly2 =>
    simp only [phaseCycle, hp] at h
    cases h
    exact wait_row (.inr hp) (.dly2End hp)
  | vrr =>
    rw [phaseCycle_vrr hp] at h
    exact transaction_row (by rw [hp]; rfl) (fun v ht ha hv => virtualDelivery_row hp ht ha hc hv) h
  | prr =>
    rw [phaseCycle_prr hp] at h
    exact transaction_row (by rw [hp]; rfl) (fun v ht ha hv => directDelivery_row hp ht ha hc hv) h
  | mxw =>
    simp only [phaseCycle, hp, writeMaskCycle, writeCycle] at h
    refine transaction_row (by rw [hp]; rfl) (fun v ht ha hv => ?_) h
    cases hv
    exact .mxwOk hp ht ha
  | rsp =>
    simp only [phaseCycle, hp] at h
    cases h
    rcases responseCycle_cases s with ⟨hy, e⟩ | ⟨hy, e⟩ <;> rw [e]
    · exact .rspTaken hp hy
    · exact .rspHeld hp hy
  | flt =>
    rw [phaseCycle_flt hp] at h
    cases h
    exact .fltHeld hp

/-- Settles O11: a delivery by `deliverByte`, in the phase whose byte the command takes. -/
theorem singleReadReturnsTheByte : Obligations.SingleReadReturnsTheByte := by
  intro s a ht hv he
  constructor <;> intro hp <;> rw [exec_busy _ (by simp [hp])]
  · rw [phaseCycle_vrr hp, readCycle_ok ht ⟨hv, he⟩, virtualDelivery, deliverByte_eq]
    rfl
  · rw [phaseCycle_prr hp, readCycle_ok ht ⟨hv, he⟩, directDelivery, deliverByte_eq]
    rfl

/-! ### The two halves of a transaction phase (R81 to R87, R101, R102, R131) -/

theorem drivenRequest_vrr (hp : s.phase = .vrr) :
    s.drivenRequest = some (.readByteData s.params.devVr s.params.rreg) := by
  simp [State.drivenRequest, hp]

/-- Outside a pair decode `CUR` is `A` (R29). -/
theorem cur_eq_a (ho : s.opc = 0x01#8 ∨ s.opc = 0x02#8) : s.cur = s.a := by
  rcases ho with ho | ho <;> simp [State.cur, State.isPair, opDECV, opDECP, ho]

/-- A driven request not yet accepted is on the port, and the next cycle accepts it or leaves it there (R28, R46). -/
theorem requestPorts_and_step_of_driven {r : Request} (hr : s.inputs.rst = false) (ht : s.tpend = false)
    (hp : s.phase.isTransaction = true) (hd : s.drivenRequest = some r) :
    s.outputs.tReqValid = true ∧ s.requestPorts = r ∧
    step s = .next
      (if s.inputs.tReqReady = true then
        { s with tpend := true, record := s.record ++ [.request r], script := s.script.tail, cycle := s.cycle + 1 }
       else { s with script := s.script.tail, cycle := s.cycle + 1 }) := by
  refine ⟨tReqValid_iff.mpr ⟨hp, ht⟩, by rw [State.requestPorts, hd]; rfl, ?_⟩
  cases hy : s.inputs.tReqReady with
  | true => exact row_step hr (.requested r hp ht hy hd)
  | false => exact row_step hr (.notRequested hp ht hy)

/-- Settles O7: the request of the statement is the one each phase drives. -/
theorem transactionIsOffered : Obligations.TransactionIsOffered := by
  refine ⟨fun s => cur_eq_a, fun s r hr ht h => ?_⟩
  rcases h with ⟨hp, rfl⟩ | ⟨hp, rfl⟩ | ⟨hp, rfl⟩ | ⟨hp, rfl⟩
  · exact requestPorts_and_step_of_driven hr ht (by rw [hp]; rfl) (drivenRequest_vrw hp)
  · exact requestPorts_and_step_of_driven hr ht (by rw [hp]; rfl) (drivenRequest_vrr hp)
  · exact requestPorts_and_step_of_driven hr ht (by rw [hp]; rfl) (drivenRequest_prr hp)
  · exact requestPorts_and_step_of_driven hr ht (by rw [hp]; rfl) (drivenRequest_mxw hp)

/-- Settles O8: the three rows of a pending transaction in `VRW`. -/
theorem numberWriteIsAnswered : Obligations.NumberWriteIsAnswered := by
  intro s hp ht hr
  have htr : s.phase.isTransaction = true := by rw [hp]; rfl
  dsimp only
  split_ifs with he hv
  · rw [← hp]
    exact row_step hr (.failed htr ht he)
  · exact row_step hr (.vrwOk hp ht ⟨hv, by simpa [hv] using he⟩)
  · exact row_step hr (.notAnswered htr ht (by simpa using hv))

/-- A command in progress in `VRR` is one that reads there (R87). -/
theorem opc_of_serving_vrr (hs : s.serving i) (hp : s.phase = .vrr) : s.opc = 0x01#8 ∨ s.opc = 0x04#8 := by
  have ho := opc_of_latchedCommand (latchedCommand_of_serving hs)
  obtain ⟨_, hrun⟩ := hs
  rw [hp] at hrun
  cases i with
  | rdvr a => exact .inl ho
  | decv lo hi => exact .inr ho
  | rdpr a | selch m | decp lo hi => cases hrun

/-- A command in progress in `PRR` is one that reads there (R102). -/
theorem opc_of_serving_prr (hs : s.serving i) (hp : s.phase = .prr) : s.opc = 0x02#8 ∨ s.opc = 0x05#8 := by
  have ho := opc_of_latchedCommand (latchedCommand_of_serving hs)
  obtain ⟨_, hrun⟩ := hs
  rw [hp] at hrun
  cases i with
  | rdpr a => exact .inl ho
  | decp lo hi => exact .inr ho
  | rdvr a | selch m | decv lo hi => cases hrun

/-- Settles O9: the command in progress has an opcode of the phase, and each answer is a row of the table. -/
theorem readIsAnswered : Obligations.ReadIsAnswered := by
  constructor
  · intro s hinv
    constructor <;> intro hp
    · obtain ⟨i, hs⟩ := hinv.inProgress (by simp [hp]) (by simp [hp])
      exact opc_of_serving_vrr hs hp
    · obtain ⟨i, hs⟩ := hinv.inProgress (by simp [hp]) (by simp [hp])
      exact opc_of_serving_prr hs hp
  · intro s ht hr
    refine ⟨fun hp => ?_, fun hv he => ⟨?_, ?_, ?_, ?_, ?_⟩⟩
    · have htr : s.phase.isTransaction = true := by rcases hp with hp | hp <;> rw [hp] <;> rfl
      exact ⟨fun hv he => row_step hr (.failed htr ht ⟨hv, he⟩), fun hv => row_step hr (.notAnswered htr ht hv)⟩
    · exact fun hp ho => row_step hr (.vrrSingle hp ht ⟨hv, he⟩ ho)
    · exact fun hp ho => row_step hr (.prrSingle hp ht ⟨hv, he⟩ ho)
    · exact fun hp ho hd => row_step hr (.vrrFirst hp ht ⟨hv, he⟩ ho hd)
    · exact fun hp ho hd => row_step hr (.prrFirst hp ht ⟨hv, he⟩ ho hd)
    · rintro (⟨hp, ho⟩ | ⟨hp, ho⟩) hd
      · exact row_step hr (.vrrSecond hp ht ⟨hv, he⟩ ho hd)
      · exact row_step hr (.prrSecond hp ht ⟨hv, he⟩ ho hd)

/-! ### Runs put together -/

/-- A run that reaches `t` and one from `t` are one run. -/
theorem runFor_trans {m n : Nat} (hm : runFor m s = .next t) (hn : runFor n t = .next u) :
    runFor (m + n) s = .next u := (runFor_add m n hm).trans hn

/-! ### The waits (R84, R85, R153) -/

/-- One tick of either wait (R152). -/
theorem step_tick (hr : s.inputs.rst = false) (hp : s.phase = .dly1 ∨ s.phase = .dly2) (hd : s.dcnt ≠ 0#32) :
    step s = .next ({ s with dcnt := s.dcnt - 1#32 } : State).tick := by
  rcases hp with hp | hp
  · exact row_step hr (.dly1Tick hp hd)
  · exact row_step hr (.dly2Tick hp hd)

/-- As many cycles of a wait as `DCNT` allows are ticks (R152). -/
theorem runFor_ticks (ins rest : List Inputs) :
    ∀ s : State, s.script = ins ++ rest → undisturbed ins → s.phase = .dly1 ∨ s.phase = .dly2 →
      ins.length ≤ s.dcnt.toNat →
      runFor ins.length s = .next { s with
        dcnt := BitVec.ofNat 32 (s.dcnt.toNat - ins.length), script := rest, cycle := s.cycle + ins.length } := by
  induction ins with
  | nil =>
    rintro s rfl - - -
    simp
  | cons x xs ih =>
    intro s hs hu hp hle
    rw [List.length_cons] at hle
    have hd : s.dcnt ≠ 0#32 := by bv_omega
    have hpred : (s.dcnt - 1#32).toNat = s.dcnt.toNat - 1 := by bv_omega
    obtain ⟨hx, huxs⟩ := List.forall_mem_cons.mp hu
    have hr : s.inputs.rst = false := by rw [inputs_of_script hs]; exact hx
    have htail := ih ({ s with dcnt := s.dcnt - 1#32 } : State).tick (by simp [hs]) huxs hp
      (by simp only [State.tick_dcnt]; omega)
    rw [List.length_cons, runFor_succ (step_tick hr hp hd), htail]
    simp [State.tick, hpred, Nat.sub_sub, Nat.add_comm, Nat.add_left_comm]

/-- A wait's last cycle finds `DCNT` = 0 (R153). -/
theorem runFor_toExpiry {ins rest : List Inputs} (hs : s.script = ins ++ rest) (hu : undisturbed ins)
    (hp : s.phase = .dly1 ∨ s.phase = .dly2) (hlen : ins.length = s.dcnt.toNat + 1) :
    ∃ x : Inputs, x.rst = false ∧
      runFor s.dcnt.toNat s = .next { s with dcnt := 0#32, script := x :: rest, cycle := s.cycle + s.dcnt.toNat } := by
  rcases List.eq_nil_or_concat' ins with rfl | ⟨ticks, x, rfl⟩
  · simp at hlen
  · have hticks : ticks.length = s.dcnt.toNat := by simpa using hlen
    obtain ⟨huticks, hux⟩ := List.forall_mem_append.mp hu
    refine ⟨x, hux x (by simp), ?_⟩
    have hrun := runFor_ticks ticks (x :: rest) s (by simp [hs]) huticks hp hticks.le
    simpa [hticks] using hrun

/-- The first wait is followed at once by the second (R84). -/
theorem runFor_firstWait {ins rest : List Inputs} (hs : s.script = ins ++ rest) (hu : undisturbed ins)
    (hp : s.phase = .dly1) (hlen : ins.length = s.dcnt.toNat + 1) :
    runFor ins.length s = .next { s with
      phase := .dly2, dcnt := s.params.spinCount, script := rest, cycle := s.cycle + ins.length } := by
  obtain ⟨x, hr, hrun⟩ := runFor_toExpiry hs hu (.inl hp) hlen
  have hdone := runFor_trans hrun (runFor_one (row_step hr (.dly1End hp rfl)))
  rw [hlen]
  exact hdone

/-- The second wait is followed by the read (R85). -/
theorem runFor_secondWait {ins rest : List Inputs} (hs : s.script = ins ++ rest) (hu : undisturbed ins)
    (hp : s.phase = .dly2) (hlen : ins.length = s.dcnt.toNat + 1) :
    runFor ins.length s = .next { s with
      phase := .vrr, dcnt := 0#32, tpend := false, script := rest, cycle := s.cycle + ins.length } := by
  obtain ⟨x, hr, hrun⟩ := runFor_toExpiry hs hu (.inr hp) hlen
  have hdone := runFor_trans hrun (runFor_one (row_step hr (.dly2End hp rfl)))
  rw [hlen]
  exact hdone

/-- Settles O16: `runFor_ticks` and the two ends of a wait. -/
theorem waitRunsItsIterations : Obligations.WaitRunsItsIterations := by
  intro s ins rest hs hu hp
  exact ⟨runFor_ticks ins rest s hs hu hp, fun hlen hp1 => runFor_firstWait hs hu hp1 hlen,
    fun hlen hp2 => runFor_secondWait hs hu hp2 hlen⟩

/-! ### The run of a virtual-register sequence (R80, R91, R184) -/

/-- An offered command is accepted in one cycle (R25, R64). -/
theorem step_command_offered {x : Inputs} {rest : List Inputs} (hp : s.phase = .idle) (hs : s.script = x :: rest)
    (hx : x.offers (encode i)) : step s = .next (accept (encode i) (firstPhase i) s).tick := by
  obtain ⟨hr, hv, hw⟩ := hx
  have hin := inputs_of_script hs
  exact step_idle_command hp (by rw [hin, hr]) (by rw [hin, hv]) (by rw [hin, hw, decode_encode])

/-- Phase `VRW` from its first cycle to the successful answer (R81, R83). -/
theorem runFor_numberWrite {e : Byte} {ins rest : List Inputs} (hs : s.script = ins ++ rest)
    (ht : transacts false e ins) (hp : s.phase = .vrw) (hn : s.tpend = false) :
    runFor ins.length s = .next { s with
      phase := .dly1, tpend := false, dcnt := s.params.spinCount, script := rest, cycle := s.cycle + ins.length,
      record := s.record ++
        [.request (.writeByteData s.params.devVr s.params.wreg (transmitted s.cur)), .answer .ok] } := by
  obtain ⟨x, m, hlen, hrun, hr, hv, he, -⟩ := runFor_toAnswer hs ht (by rw [hp]; rfl) hn (drivenRequest_vrw hp)
  have hdone := runFor_trans hrun (runFor_one (row_step hr (.vrwOk hp rfl ⟨hv, he⟩)))
  simpa [hlen, State.tick, Nat.add_assoc] using hdone

/-- The two waits, from the answer of the write to the read (R84, R85, R91). -/
theorem runFor_waitsTwice {ins rest : List Inputs} (hs : s.script = ins ++ rest) (hw : waitsTwice s.params ins)
    (hp : s.phase = .dly1) (hd : s.dcnt = s.params.spinCount) :
    runFor ins.length s = .next { s with
      phase := .vrr, tpend := false, dcnt := 0#32, script := rest, cycle := s.cycle + ins.length } := by
  obtain ⟨hlen, hu⟩ := hw
  obtain ⟨w₁, w₂, rfl, h₁⟩ : ∃ w₁ w₂, ins = w₁ ++ w₂ ∧ w₁.length = s.params.spinCount.toNat + 1 :=
    ⟨_, _, (List.take_append_drop (s.params.spinCount.toNat + 1) ins).symm, by rw [List.length_take]; omega⟩
  rw [List.length_append] at hlen
  obtain ⟨hu₁, hu₂⟩ := List.forall_mem_append.mp hu
  have hfirst := runFor_firstWait (ins := w₁) (rest := w₂ ++ rest) (by simp [hs]) hu₁ hp (by rw [hd, h₁])
  have hboth := runFor_trans hfirst
    (runFor_secondWait (ins := w₂) (rest := rest) rfl hu₂ rfl (by dsimp only; omega))
  simpa [Nat.add_assoc] using hboth

/-- Phase `VRR` of `RDVR` from its first cycle to the byte (R86, R87, R89). -/
theorem runFor_singleVirtualRead {d : Byte} {ins rest : List Inputs} (hs : s.script = ins ++ rest)
    (ht : transacts false d ins) (hp : s.phase = .vrr) (hn : s.tpend = false) (ho : s.opc = 0x01#8) :
    runFor ins.length s = .next { s with
      phase := .rsp, tpend := false, res := 0x00#8 ++ d, script := rest, cycle := s.cycle + ins.length,
      record := s.record ++ [.request (.readByteData s.params.devVr s.params.rreg), .answer (.byte d)] } := by
  obtain ⟨x, m, hlen, hrun, hr, hv, he, rfl⟩ := runFor_toAnswer hs ht (by rw [hp]; rfl) hn (drivenRequest_vrr hp)
  have hdone := runFor_trans hrun (runFor_one (row_step hr (.vrrSingle hp rfl ⟨hv, he⟩ ho)))
  simpa [hlen, State.tick, State.inputs, Nat.add_assoc] using hdone

/-- Phases `VRW` to `VRR`: from the offer of the write to the offer of the read (R81 to R85, R91). -/
theorem runFor_toRead {e : Byte} {write wait rest : List Inputs} (hs : s.script = write ++ (wait ++ rest))
    (hwrite : transacts false e write) (hwait : waitsTwice s.params wait) (hp : s.phase = .vrw) (hn : s.tpend = false) :
    runFor (write.length + wait.length) s = .next { s with
      phase := .vrr, tpend := false, dcnt := 0#32, script := rest, cycle := s.cycle + (write.length + wait.length),
      record := s.record ++
        [.request (.writeByteData s.params.devVr s.params.wreg (transmitted s.cur)), .answer .ok] } := by
  have hboth := runFor_trans (runFor_numberWrite hs hwrite hp hn)
    (runFor_waitsTwice (ins := wait) (rest := rest) rfl hwait rfl rfl)
  simpa [Nat.add_assoc] using hboth

/-- Settles O37: the acceptance, the phases up to the read, and the read. -/
theorem rdvrRunsToItsResponse : Obligations.RdvrRunsToItsResponse := by
  intro s a d x write wait read rest hp hs hx ⟨e, hwrite⟩ hwait hread n
  have ⟨hlen, _⟩ := hwait
  let s₁ : State := (accept (encode (.rdvr a)) .vrw s).tick
  have hs₁ : s₁.script = write ++ (wait ++ (read ++ rest)) := by simp [s₁, hs]
  have hcur : s₁.cur = a := (cur_eq_a (.inl (opcField_packWord ..))).trans (aField_packWord ..)
  have haccept : runFor 1 s = .next s₁ := runFor_one (step_command_offered hp hs hx)
  have hrun := runFor_trans haccept (runFor_trans (runFor_toRead hs₁ hwrite hwait rfl rfl)
    (runFor_singleVirtualRead (ins := read) (rest := rest) rfl hread rfl rfl (opcField_packWord ..)))
  have hn : n = 1 + ((write.length + wait.length) + read.length) := by simp only [n, hlen]; omega
  rw [hn, hrun, hcur]
  simp [s₁, State.tick, accept, latch, encode, opRDVR, virtualEvents, Nat.add_assoc]

/-! ### What a row leaves unchanged -/

/-- The latched word is kept while a command is in progress (R11 to R13). -/
theorem row_keeps_latches (hs : s.serving i) (h : TableRow s u) : u.opc = s.opc ∧ u.a = s.a ∧ u.b = s.b := by
  have hw : u.latchedWord = s.latchedWord := by
    rcases row_latches h with ⟨hp, -⟩ | ⟨-, hw, -⟩ | ⟨hw, -⟩
    · exact absurd hp (phase_ne_idle_of_serving hs)
    · exact hw
    · exact hw
  obtain ⟨ho, hb, ha⟩ := packWord_inj.mp hw
  exact ⟨ho, ha, hb⟩

/-- A single read in progress keeps `DSTEP` and `HI`: only a pair decode has a first byte (R14, R17). -/
theorem row_keeps_halves_of_single (hs : s.serving i) (hb : returnsByte i = true) (h : TableRow s u) :
    u.dstep = s.dstep ∧ u.hi = s.hi := by
  rcases row_latches h with ⟨hp, -⟩ | ⟨⟨-, -, -, hpair⟩, -⟩ | ⟨-, hd, hh⟩
  · exact absurd hp (phase_ne_idle_of_serving hs)
  · have hopc := opc_of_returnsByte hs hb
    rcases hpair with ⟨-, ho⟩ | ⟨-, ho⟩ <;> simp [ho] at hopc
  · exact ⟨hd, hh⟩

/-- `RES` is kept outside the two phases that read (R15). -/
theorem row_keeps_res (h : TableRow s u) (hv : s.phase ≠ .vrr) (hp : s.phase ≠ .prr) : u.res = s.res := by
  rcases row_res h with e | ⟨-, -, hp' | hp', -⟩
  · exact e
  · exact absurd hp' hv
  · exact absurd hp' hp

/-- `DCNT` is kept outside the write of the number and the waits (R19). -/
theorem row_keeps_dcnt (h : TableRow s u) (hw : s.phase ≠ .vrw) (h1 : s.phase ≠ .dly1) (h2 : s.phase ≠ .dly2) :
    u.dcnt = s.dcnt := by
  rcases row_dcnt h with e | ⟨-, ⟨hp, -⟩ | ⟨hp, -⟩⟩ | ⟨-, -, -, hp | hp⟩
  · exact e
  · exact absurd hp hw
  · exact absurd hp h1
  · exact absurd hp h1
  · exact absurd hp h2

/-- The fault record is kept unless `FLT` is entered (R20, R21). -/
theorem row_keeps_faultRecord (h : TableRow s u) (hp : u.phase ≠ .flt) : u.fcause = s.fcause ∧ u.fphase = s.fphase := by
  rcases row_fault h with ⟨hc, hf, -⟩ | ⟨hp', -⟩
  · exact ⟨hc, hf⟩
  · exact absurd hp' hp

/-! ### The frame of `RDVR` (R80) -/

/-- The latches while `RDVR` is in progress (R11, R12). -/
theorem latches_of_serving_rdvr {a : Byte} (hs : s.serving (.rdvr a)) : s.opc = 0x01#8 ∧ s.a = a := by
  obtain ⟨hw, -⟩ := hs
  obtain ⟨ho, -, ha⟩ := packWord_inj.mp hw
  exact ⟨ho, ha⟩

/-- `RDVR` is in progress in neither the direct read's nor the channel select's phase (R80). -/
theorem phase_of_serving_rdvr {a : Byte} (hs : s.serving (.rdvr a)) : s.phase ≠ .prr ∧ s.phase ≠ .mxw := by
  obtain ⟨-, hrun⟩ := hs
  constructor <;> intro hp <;> rw [hp] at hrun <;> cases hrun

/-- The requests `RDVR` drives (R81, R86). -/
theorem drivenRequest_of_serving_rdvr {a : Byte} {r : Request} (hs : s.serving (.rdvr a))
    (hd : s.drivenRequest = some r) :
    (s.phase = .vrw ∧ r = ⟨.writeByteData, s.params.devVr, s.params.wreg, a &&& 0x7F#8⟩) ∨
    (s.phase = .vrr ∧ r = ⟨.readByteData, s.params.devVr, s.params.rreg, 0x00#8⟩) := by
  obtain ⟨ho, rfl⟩ := latches_of_serving_rdvr hs
  obtain ⟨hprr, hmxw⟩ := phase_of_serving_rdvr hs
  have htr : s.phase.isTransaction = true := by rw [← drivenRequest_isSome, hd]; rfl
  rcases isTransaction_iff.mp htr with hp | hp | hp | hp
  · rw [drivenRequest_vrw hp, cur_eq_a (.inl ho)] at hd
    exact .inl ⟨hp, (Option.some.inj hd).symm⟩
  · rw [drivenRequest_vrr hp] at hd
    exact .inr ⟨hp, (Option.some.inj hd).symm⟩
  · exact absurd hp hprr
  · exact absurd hp hmxw

/-- Settles O52: the acceptance writes the latches alone; in progress the cycle is a row of the table (`exec_row`), and
what a row leaves unchanged is known. -/
theorem rdvrFrame : Obligations.RdvrFrame := by
  rintro s t a (hp | hs) h
  · rw [exec_idle _ hp] at h
    cases h
    exact ⟨rfl, rfl, rfl, rfl, fun hne => absurd hp hne, fun _ => rfl, fun _ _ _ => rfl, fun _ => ⟨rfl, rfl⟩, .inl rfl⟩
  · have hrow := exec_row hs h
    obtain ⟨hparams, hscript, hcycle⟩ := row_keeps hrow
    obtain ⟨hopc, ha, hb⟩ := row_keeps_latches hs hrow
    obtain ⟨hdstep, hhi⟩ := row_keeps_halves_of_single hs rfl hrow
    obtain ⟨hprr, -⟩ := phase_of_serving_rdvr hs
    refine ⟨hhi, hparams, hscript, hcycle, fun _ => ⟨hopc, ha, hb, hdstep⟩, fun hvrr => row_keeps_res hrow hvrr hprr,
      row_keeps_dcnt hrow, row_keeps_faultRecord hrow, ?_⟩
    rcases row_record hrow with hrec | ⟨r, hrec, hd, -⟩ | ⟨x, hrec, ht, -⟩
    · exact .inl hrec
    · rcases drivenRequest_of_serving_rdvr hs hd with ⟨hp, rfl⟩ | ⟨hp, rfl⟩
      · exact .inr (.inl ⟨hp, hrec⟩)
      · exact .inr (.inr (.inl ⟨hp, hrec⟩))
    · exact .inr (.inr (.inr ⟨ht, x, hrec⟩))

end Sys2Proof.Machine
end


-- ==== Sys2Proof/Proofs/DirectRead.lean ====
section
/-! PROOF. The direct register read family (41_direct_register_read.md): the run of `RDPR` is its acceptance and the one
read of phase `PRR`, and its frame is what a row of the transition table leaves unchanged in `PRR` and `RSP`. -/

namespace Sys2Proof.Machine

variable {s : State}

/-! ### The run of `RDPR` (R100, R184) -/

/-- Phase `PRR` of `RDPR` from its first cycle to the byte (R101 to R103). -/
theorem runFor_singleDirectRead {d : Byte} {ins rest : List Inputs} (hs : s.script = ins ++ rest)
    (ht : transacts false d ins) (hp : s.phase = .prr) (hn : s.tpend = false) (ho : s.opc = 0x02#8) :
    runFor ins.length s = .next { s with
      phase := .rsp, tpend := false, res := 0x00#8 ++ d, script := rest, cycle := s.cycle + ins.length,
      record := s.record ++ directEvents s.params s.cur d } := by
  obtain ⟨x, m, hlen, hrun, hr, hv, he, rfl⟩ := runFor_toAnswer hs ht (by rw [hp]; rfl) hn (drivenRequest_prr hp)
  have hdone := runFor_trans hrun (runFor_one (row_step hr (.prrSingle hp rfl ⟨hv, he⟩ ho)))
  simpa [hlen, State.tick, State.inputs, directEvents, Nat.add_assoc] using hdone

/-- Settles O38: the acceptance, then the read of `CUR` = `A`. -/
theorem rdprRunsToItsResponse : Obligations.RdprRunsToItsResponse := by
  intro s a d x read rest hp hs hx hread n
  let s₁ : State := (accept (encode (.rdpr a)) .prr s).tick
  have hs₁ : s₁.script = read ++ rest := by simp [s₁, hs]
  have hopc : s₁.opc = 0x02#8 := opcField_packWord ..
  have hcur : s₁.cur = a := (cur_eq_a (.inr hopc)).trans (aField_packWord ..)
  have haccept : runFor 1 s = .next s₁ := runFor_one (step_command_offered hp hs hx)
  have hrun := runFor_trans haccept (runFor_singleDirectRead hs₁ hread rfl rfl hopc)
  rw [hrun, hcur]
  simp [s₁, n, State.tick, accept, latch, encode, opRDPR, Nat.add_assoc]

/-! ### The frame of `RDPR` (R100) -/

/-- The latches while `RDPR` is in progress (R11, R12). -/
theorem latches_of_serving_rdpr {a : Byte} (hs : s.serving (.rdpr a)) : s.opc = 0x02#8 ∧ s.a = a := by
  obtain ⟨hw, -⟩ := hs
  obtain ⟨ho, -, ha⟩ := packWord_inj.mp hw
  exact ⟨ho, ha⟩

/-- `RDPR` in progress is reading or has its response waiting (R100). -/
theorem phase_of_serving_rdpr {a : Byte} (hs : s.serving (.rdpr a)) : s.phase = .prr ∨ s.phase = .rsp := by
  obtain ⟨-, hrun⟩ := hs
  cases hp : s.phase with
  | prr => exact .inl rfl
  | rsp => exact .inr rfl
  | _ => rw [hp] at hrun; cases hrun

/-- The one request `RDPR` drives (R101, R104). -/
theorem drivenRequest_of_serving_rdpr {a : Byte} {r : Request} (hs : s.serving (.rdpr a))
    (hd : s.drivenRequest = some r) :
    s.phase = .prr ∧ r = ⟨.readByteData, s.params.devPr, a &&& 0x7F#8, 0x00#8⟩ := by
  obtain ⟨ho, rfl⟩ := latches_of_serving_rdpr hs
  rcases phase_of_serving_rdpr hs with hp | hp
  · rw [drivenRequest_prr hp, cur_eq_a (.inr ho)] at hd
    exact ⟨hp, (Option.some.inj hd).symm⟩
  · have hsome := drivenRequest_isSome s
    rw [hd, hp] at hsome
    cases hsome

/-- Settles O53: the acceptance writes the latches alone; in progress the cycle is a row of the table (`exec_row`), in a
phase that has no wait and drives only the read. -/
theorem rdprFrame : Obligations.RdprFrame := by
  rintro s t a (hp | hs) h
  · rw [exec_idle _ hp] at h
    cases h
    exact ⟨rfl, rfl, rfl, rfl, rfl, fun hne => absurd hp hne, fun _ => rfl, fun _ => ⟨rfl, rfl⟩, .inl rfl⟩
  · have hrow := exec_row hs h
    obtain ⟨hparams, hscript, hcycle⟩ := row_keeps hrow
    obtain ⟨hopc, ha, hb⟩ := row_keeps_latches hs hrow
    obtain ⟨hdstep, hhi⟩ := row_keeps_halves_of_single hs rfl hrow
    obtain ⟨hvrw, hdly1, hdly2, hvrr⟩ : s.phase ≠ .vrw ∧ s.phase ≠ .dly1 ∧ s.phase ≠ .dly2 ∧ s.phase ≠ .vrr := by
      rcases phase_of_serving_rdpr hs with hp | hp <;> simp [hp]
    refine ⟨hhi, row_keeps_dcnt hrow hvrw hdly1 hdly2, hparams, hscript, hcycle, fun _ => ⟨hopc, ha, hb, hdstep⟩,
      row_keeps_res hrow hvrr, row_keeps_faultRecord hrow, ?_⟩
    rcases row_record hrow with hrec | ⟨r, hrec, hd, -⟩ | ⟨x, hrec, ht, -⟩
    · exact .inl hrec
    · obtain ⟨hp, rfl⟩ := drivenRequest_of_serving_rdpr hs hd
      exact .inr (.inl ⟨hp, hrec⟩)
    · exact .inr (.inr ⟨ht, x, hrec⟩)

end Sys2Proof.Machine
end

