-- ==== Sys2Proof/Proofs/PairDecode.lean ====
section
/-! PROOF. The pair decode family (42_pair_decode.md): the combiner is the two bytes joined and read in two's complement;
the runs of `DECV` and `DECP`, to their response or to the transaction that fails, are put together from one half for each
operand; and the frames are what a row of the transition table leaves unchanged. -/

namespace Sys2Proof.Machine

variable {s u : State} {i : Instr}

/-! ### The combiner (R110, R116, R119) -/

/-- `signed16` is the two's-complement reading of 16 bits (R5). -/
theorem signed16_eq_toInt (w : Half) : signed16 w = w.toInt := by
  have hlt : w.toNat < 0x8000 ↔ 2 * w.toNat < 2 ^ 16 := by omega
  rw [signed16, BitVec.toInt_eq_toNat_cond]
  simp only [hlt]
  rfl

theorem decodeValue_eq_toInt (hi lo : Byte) : decodeValue hi lo = (hi ++ lo : Half).toInt := by
  rw [decodeValue, signed16_eq_toInt, combine_eq_append]

/-- The joined bytes as a number (R110). -/
theorem combine_toNat (hi lo : Byte) : (combine hi lo).toNat = 256 * hi.toNat + lo.toNat := by
  rw [combine_eq_append, BitVec.toNat_append, ← Nat.shiftLeft_add_eq_or_of_lt lo.isLt, Nat.shiftLeft_eq]
  omega

/-- The decoded value by the high byte's sign (R110). -/
theorem decodeValue_eq (hi lo : Byte) :
    decodeValue hi lo =
      if hi.toNat < 0x80 then 256 * (hi.toNat : Int) + lo.toNat else 256 * (hi.toNat : Int) + lo.toNat - 65536 := by
  have hlo := lo.isLt
  have hlt : 256 * hi.toNat + lo.toNat < 0x8000 ↔ hi.toNat < 0x80 := by omega
  rw [decodeValue, signed16, combine_toNat]
  simp only [hlt]
  push_cast
  rfl

/-- The sign of the sample is bit 7 of the high byte (R110, R119 e). -/
theorem decodeValue_neg_iff (hi lo : Byte) : decodeValue hi lo < 0 ↔ 0x80 ≤ hi.toNat := by
  have hhi := hi.isLt
  have hlo := lo.isLt
  rw [decodeValue_eq]
  split <;> omega

/-- The two bytes of a pattern give its two's-complement value (R119 b). -/
theorem decodeValue_bytes (w : Half) : decodeValue (w.extractLsb' 8 8) (w.extractLsb' 0 8) = w.toInt := by
  have happend : (w.extractLsb' 8 8 ++ w.extractLsb' 0 8 : Half) = w :=
    (BitVec.extractLsb'_append_extractLsb'_eq_extractLsb' rfl).trans BitVec.extractLsb'_eq_self
  rw [decodeValue_eq_toInt, happend]

/-- Distinct byte pairs are distinct samples (R119 d). -/
theorem decodeValue_inj {hi lo hi' lo' : Byte} (h : decodeValue hi lo = decodeValue hi' lo') : hi = hi' ∧ lo = lo' := by
  rw [decodeValue_eq_toInt, decodeValue_eq_toInt] at h
  have happend : (hi ++ lo : Half) = hi' ++ lo' := BitVec.eq_of_toInt_eq h
  have hhi := congrArg (BitVec.extractLsb' 8 8) happend
  have hlo := congrArg (BitVec.extractLsb' 0 8) happend
  rw [BitVec.extractLsb'_append_eq_left, BitVec.extractLsb'_append_eq_left] at hhi
  rw [BitVec.extractLsb'_append_eq_right, BitVec.extractLsb'_append_eq_right] at hlo
  exact ⟨hhi, hlo⟩

/-- Every value of 16 bits is that of the bytes of its pattern (R119 b). -/
theorem decodeValue_ofInt {x : Int} (hmin : -32768 ≤ x) (hmax : x ≤ 32767) :
    decodeValue ((BitVec.ofInt 16 x).extractLsb' 8 8) ((BitVec.ofInt 16 x).extractLsb' 0 8) = x := by
  rw [decodeValue_bytes]
  exact BitVec.toInt_ofInt_eq_self (by decide) (by omega) (by omega)

/-- Settles O23: the concatenation by `combine_eq_append`, the values by `decodeValue_eq`. -/
theorem combinerJoinsTheBytes : Obligations.CombinerJoinsTheBytes := by
  intro hi lo
  refine ⟨combine_eq_append hi lo, combine_toNat hi lo, rfl, fun h => ?_, fun h => ?_, ?_⟩
  · rw [decodeValue_eq, if_pos h]
  · rw [decodeValue_eq, if_neg (Nat.not_lt.mpr h)]
  · rw [decodeValue_neg_iff, BitVec.msb_eq_decide, decide_eq_true_iff]

/-- Settles O24: the bytes and the values determine each other (`decodeValue_ofInt`, `decodeValue_inj`). -/
theorem combinerLaws : Obligations.CombinerLaws := by
  refine ⟨fun hi lo => ?_, fun x => decodeValue_ofInt, by decide, fun x hmin hmax => ?_, fun hi lo => ?_,
    decodeValue_neg_iff, by decide⟩
  · rw [combine_eq_append]
    exact ⟨BitVec.extractLsb'_append_eq_left, BitVec.extractLsb'_append_eq_right⟩
  · refine ⟨(_, _), decodeValue_ofInt hmin hmax, fun p hp => ?_⟩
    obtain ⟨hhi, hlo⟩ := decodeValue_inj (hp.trans (decodeValue_ofInt hmin hmax).symm)
    exact Prod.ext hhi hlo
  · rw [decodeValue_eq_toInt]
    exact ⟨BitVec.le_toInt _, Int.le_sub_one_of_lt BitVec.toInt_lt⟩

/-- Settles O25: sign extension keeps the two's-complement value. -/
theorem signExtensionKeepsTheSample : Obligations.SignExtensionKeepsTheSample := by
  intro n w hn
  rw [BitVec.toInt_signExtend_of_le hn, signed16_eq_toInt]

/-! ### The deliveries (R114, R115) -/

/-- A byte answered in `VRR` to `DECV` is delivered as a pair's. -/
theorem exec_decv_answered (lo hi : Byte) (hp : s.phase = .vrr) (ht : s.tpend = true) (ha : s.answerOk) :
    exec (.decv lo hi) s = deliverPair .vrw s.inputs.tRspRdata (s.log (.answer (.byte s.inputs.tRspRdata))) := by
  rw [exec_busy _ (by simp [hp]), phaseCycle_vrr hp, readCycle_ok ht ha, virtualDelivery]

/-- A byte answered in `PRR` to `DECP` is delivered as a pair's. -/
theorem exec_decp_answered (lo hi : Byte) (hp : s.phase = .prr) (ht : s.tpend = true) (ha : s.answerOk) :
    exec (.decp lo hi) s = deliverPair .prr s.inputs.tRspRdata (s.log (.answer (.byte s.inputs.tRspRdata))) := by
  rw [exec_busy _ (by simp [hp]), phaseCycle_prr hp, readCycle_ok ht ha, directDelivery]

/-- In the second half of a pair decode `CUR` is `A` (R29). -/
theorem cur_of_secondHalf (hd : s.dstep = true) : s.cur = s.a := by simp [State.cur, hd]

/-- In the first half of a pair decode `CUR` is `B` (R29). -/
theorem cur_of_firstHalf (ho : s.opc = 0x04#8 ∨ s.opc = 0x05#8) (hd : s.dstep = false) : s.cur = s.b := by
  rcases ho with ho | ho <;> simp [State.cur, State.isPair, opDECV, opDECP, ho, hd]

/-- In a pair decode `CUR` is the operand of the half (R29, R113). -/
theorem cur_of_pair (ho : s.opc = 0x04#8 ∨ s.opc = 0x05#8) : s.cur = if s.dstep then s.a else s.b := by
  cases hd : s.dstep with
  | false => exact cur_of_firstHalf ho hd
  | true => exact cur_of_secondHalf hd

/-- Settles O13: the latches and `HI` by `row_latches`, the completion by `deliverPair_second`. -/
theorem pairReturnsBothBytes : Obligations.PairReturnsBothBytes := by
  constructor
  · intro s t h hr
    obtain ⟨u, hrow, rfl⟩ := step_row hr h
    rw [State.tick_dstep, State.tick_hi]
    rcases row_latches hrow with ⟨hp, hv, -, hh⟩ | ⟨⟨-, -, hd, -⟩, -, hd', -⟩ | ⟨-, hd, hh⟩
    · exact ⟨fun _ _ => ⟨hp, hv⟩, fun hne => absurd hh hne⟩
    · exact ⟨fun h1 => by simp [hd] at h1, fun _ => ⟨hd, hd'⟩⟩
    · exact ⟨fun h1 h0 => by simp [hd, h1] at h0, fun hne => absurd hh hne⟩
  · intro s lo hi ht hv he hd
    constructor <;> intro hp
    · rw [exec_decv_answered lo hi hp ht ⟨hv, he⟩, deliverPair_second (s := s.log _) _ _ hd]
      rfl
    · rw [exec_decp_answered lo hi hp ht ⟨hv, he⟩, deliverPair_second (s := s.log _) _ _ hd]
      rfl

/-- Settles O14: `deliverPair_first`; the state reached drives the request for `A`. -/
theorem pairKeepsTheFirstByte : Obligations.PairKeepsTheFirstByte := by
  intro s lo hi ht hv he hd
  have hdecv (hp : s.phase = .vrr) : exec (.decv lo hi) s =
      .next (deliverFirst .vrw s.inputs.tRspRdata (s.log (.answer (.byte s.inputs.tRspRdata)))) := by
    rw [exec_decv_answered lo hi hp ht ⟨hv, he⟩, deliverPair_first (s := s.log _) _ _ hd]
  have hdecp (hp : s.phase = .prr) : exec (.decp lo hi) s =
      .next (deliverFirst .prr s.inputs.tRspRdata (s.log (.answer (.byte s.inputs.tRspRdata)))) := by
    rw [exec_decp_answered lo hi hp ht ⟨hv, he⟩, deliverPair_first (s := s.log _) _ _ hd]
  refine ⟨hdecv, hdecp, fun t hp h => ?_, fun t hp h => ?_⟩
  · cases (hdecv hp).symm.trans h
    refine ⟨cur_of_secondHalf rfl, rfl, rfl, ?_⟩
    rw [State.requestPorts, drivenRequest_vrw rfl, cur_of_secondHalf rfl]
    rfl
  · cases (hdecp hp).symm.trans h
    refine ⟨cur_of_secondHalf rfl, rfl, rfl, ?_⟩
    rw [State.requestPorts, drivenRequest_prr rfl, cur_of_secondHalf rfl]
    rfl

/-! ### The parts of a run (R113, R141, R184) -/

/-- The byte awaited is one of a pair decode, which goes on in `again` after the first (R87, R102, R113). -/
def State.readsPairByte (s : State) (again : Phase) : Prop :=
  (s.phase = .vrr ∧ s.opc = 0x04#8 ∧ again = .vrw) ∨ (s.phase = .prr ∧ s.opc = 0x05#8 ∧ again = .prr)

section
variable {again : Phase} {r : Request} {d e : Byte} {ins write wait read rest : List Inputs}

theorem isTransaction_of_readsPairByte (h : s.readsPairByte again) : s.phase.isTransaction = true := by
  rcases h with ⟨hp, -, -⟩ | ⟨hp, -, -⟩ <;> rw [hp] <;> rfl

/-- A byte of a pair is delivered as such, whichever the phase. -/
theorem step_pairByte (hr : s.inputs.rst = false) (hpair : s.readsPairByte again) (ht : s.tpend = true)
    (ha : s.answerOk) :
    step s = advance (deliverPair again s.inputs.tRspRdata (s.log (.answer (.byte s.inputs.tRspRdata)))) := by
  rcases hpair with ⟨hp, ho, rfl⟩ | ⟨hp, ho, rfl⟩
  · rw [step_vrr_ok hr hp ht ha (latchedCommand_decv ho), virtualDelivery]
  · rw [step_prr_ok hr hp ht ha (latchedCommand_decp ho), directDelivery]

/-- A delivery does not look at the environment. -/
theorem advance_deliverPair (p : Phase) (d : Byte) (s : State) :
    advance (deliverPair p d s) = deliverPair p d s.tick := by
  cases hd : s.dstep with
  | false => rw [deliverPair_first p d hd, deliverPair_first (s := s.tick) p d hd]; rfl
  | true => rw [deliverPair_second p d hd, deliverPair_second (s := s.tick) p d hd]; rfl

/-- A read of a pair decode from its first cycle to the delivery of its byte (R86, R87, R101, R102). -/
theorem runFor_pairRead (hs : s.script = ins ++ rest) (ht : transacts false d ins) (hpair : s.readsPairByte again)
    (hn : s.tpend = false) (hd : s.drivenRequest = some r) :
    runFor ins.length s = deliverPair again d { s with
      tpend := true, script := rest, cycle := s.cycle + ins.length,
      record := s.record ++ [.request r, .answer (.byte d)] } := by
  obtain ⟨x, m, hlen, hrun, hr, hv, he, rfl⟩ :=
    runFor_toAnswer hs ht (isTransaction_of_readsPairByte hpair) hn hd
  let s₁ : State := { s with
    tpend := true, record := s.record ++ [.request r], script := x :: rest, cycle := s.cycle + m }
  have hstep : step s₁ = deliverPair again x.tRspRdata (s₁.log (.answer (.byte x.tRspRdata))).tick :=
    (step_pairByte (s := s₁) hr hpair rfl ⟨hv, he⟩).trans (advance_deliverPair ..)
  obtain ⟨t, hnext⟩ := deliverPair_goesOn again x.tRspRdata (s₁.log (.answer (.byte x.tRspRdata))).tick
  rw [hlen, runFor_trans hrun (runFor_one (hstep.trans hnext)), ← hnext]
  simp [s₁, State.tick, State.log, Nat.add_assoc]

/-- A transaction phase whose transaction fails ends in `FLT`, the phase and the cause recorded (R141, R143). -/
theorem runFor_failed (hs : s.script = ins ++ rest) (ht : transacts true d ins) (hp : s.phase.isTransaction = true)
    (hn : s.tpend = false) (hd : s.drivenRequest = some r) :
    runFor ins.length s = .next { s with
      phase := .flt, fcause := .transportError, fphase := s.phase, tpend := false, script := rest,
      cycle := s.cycle + ins.length, record := s.record ++ [.request r, .answer .err] } := by
  obtain ⟨x, m, hlen, hrun, hr, hv, he, -⟩ := runFor_toAnswer hs ht hp hn hd
  have hdone := runFor_trans hrun (runFor_one (row_step hr (.failed hp rfl ⟨hv, he⟩)))
  simpa [hlen, State.tick, Nat.add_assoc] using hdone

/-- One half of `DECV`, from the offer of the write to the delivery of the byte (R80, R111). -/
theorem runFor_virtualHalf (hs : s.script = write ++ (wait ++ (read ++ rest))) (hwrite : transacts false e write)
    (hwait : waitsTwice s.params wait) (hread : transacts false d read) (hp : s.phase = .vrw) (hn : s.tpend = false)
    (ho : s.opc = 0x04#8) :
    runFor (write.length + wait.length + read.length) s = deliverPair .vrw d { s with
      phase := .vrr, tpend := true, dcnt := 0#32, script := rest,
      cycle := s.cycle + (write.length + wait.length + read.length),
      record := s.record ++ virtualEvents s.params s.cur d } := by
  have hrun := (runFor_add _ _ (runFor_toRead hs hwrite hwait hp hn)).trans
    (runFor_pairRead (rest := rest) rfl hread (.inl ⟨rfl, ho, rfl⟩) rfl (drivenRequest_vrr rfl))
  rw [hrun]
  simp [virtualEvents, Nat.add_assoc]

end

/-! ### The runs of `DECV` (R111, R121) -/

section
variable {lo hi h e : Byte} {x : Inputs} {write wait read rest : List Inputs}

/-- The acceptance of `DECV` (R64). -/
theorem runFor_decvAccepted (hp : s.phase = .idle) (hs : s.script = x :: rest) (hx : x.offers (encode (.decv lo hi))) :
    runFor 1 s = .next { s with
      phase := .vrw, tpend := false, dstep := false, opc := 0x04#8, a := lo, b := hi, script := rest,
      cycle := s.cycle + 1 } := by
  rw [runFor_one (step_command_offered hp hs hx)]
  simp [State.tick, accept, latch, encode, opDECV, firstPhase, hs]

/-- `DECV` from its acceptance to the offer of its first read. -/
theorem runFor_decvToRead (hp : s.phase = .idle) (hs : s.script = x :: (write ++ (wait ++ rest)))
    (hx : x.offers (encode (.decv lo hi))) (hwrite : transacts false e write) (hwait : waitsTwice s.params wait) :
    runFor (1 + (write.length + wait.length)) s = .next { s with
      phase := .vrr, tpend := false, dstep := false, dcnt := 0#32, opc := 0x04#8, a := lo, b := hi, script := rest,
      cycle := s.cycle + (1 + (write.length + wait.length)),
      record := s.record ++
        [.request (.writeByteData s.params.devVr s.params.wreg (transmitted hi)), .answer .ok] } := by
  have hrun := runFor_trans (runFor_decvAccepted hp hs hx) (runFor_toRead rfl hwrite hwait rfl rfl)
  rw [cur_of_firstHalf (.inl rfl) rfl] at hrun
  simpa [Nat.add_assoc] using hrun

/-- `DECV` from its acceptance to the offer of its second write. -/
theorem runFor_decvFirstHalf (hp : s.phase = .idle) (hs : s.script = x :: (write ++ (wait ++ (read ++ rest))))
    (hx : x.offers (encode (.decv lo hi))) (hwrite : transacts false e write) (hwait : waitsTwice s.params wait)
    (hread : transacts false h read) :
    runFor (1 + (write.length + wait.length + read.length)) s = .next { s with
      phase := .vrw, tpend := false, dstep := true, dcnt := 0#32, opc := 0x04#8, a := lo, b := hi, hi := h,
      script := rest, cycle := s.cycle + (1 + (write.length + wait.length + read.length)),
      record := s.record ++ virtualEvents s.params hi h } := by
  have hrun := (runFor_add _ _ (runFor_decvAccepted hp hs hx)).trans
    (runFor_virtualHalf rfl hwrite hwait hread rfl rfl rfl)
  rw [hrun, deliverPair_first _ _ rfl, cur_of_firstHalf (.inl rfl) rfl]
  simp [deliverFirst, Nat.add_assoc]

end

/-- Settles O40: the two halves, the first delivery kept in `HI`, the second completing. -/
theorem decvRunsToItsResponse : Obligations.DecvRunsToItsResponse := by
  intro s lo hi h l x write₁ wait₁ read₁ write₂ wait₂ read₂ rest hp hs hx ⟨e₁, hw₁⟩ hd₁ hr₁ ⟨e₂, hw₂⟩ hd₂ hr₂ n
  have ⟨hlen₁, _⟩ := hd₁
  have ⟨hlen₂, _⟩ := hd₂
  have hn : n = 1 + (write₁.length + wait₁.length + read₁.length) + (write₂.length + wait₂.length + read₂.length) := by
    simp only [n, hlen₁, hlen₂]
    omega
  have hrun := (runFor_add _ _ (runFor_decvFirstHalf hp hs hx hw₁ hd₁ hr₁)).trans
    (runFor_virtualHalf rfl hw₂ hd₂ hr₂ rfl rfl rfl)
  rw [hn, hrun, deliverPair_second _ _ rfl, cur_of_secondHalf rfl]
  simp [complete, Nat.add_assoc]

/-! ### The runs of `DECP` (R112, R121) -/

section
variable {lo hi h : Byte} {x : Inputs} {read rest : List Inputs}

/-- The acceptance of `DECP` (R64). -/
theorem runFor_decpAccepted (hp : s.phase = .idle) (hs : s.script = x :: rest) (hx : x.offers (encode (.decp lo hi))) :
    runFor 1 s = .next { s with
      phase := .prr, tpend := false, dstep := false, opc := 0x05#8, a := lo, b := hi, script := rest,
      cycle := s.cycle + 1 } := by
  rw [runFor_one (step_command_offered hp hs hx)]
  simp [State.tick, accept, latch, encode, opDECP, firstPhase, hs]

/-- `DECP` from its acceptance to the offer of its second read. -/
theorem runFor_decpFirstRead (hp : s.phase = .idle) (hs : s.script = x :: (read ++ rest))
    (hx : x.offers (encode (.decp lo hi))) (hread : transacts false h read) :
    runFor (1 + read.length) s = .next { s with
      phase := .prr, tpend := false, dstep := true, opc := 0x05#8, a := lo, b := hi, hi := h, script := rest,
      cycle := s.cycle + (1 + read.length), record := s.record ++ directEvents s.params hi h } := by
  rw [runFor_add _ _ (runFor_decpAccepted hp hs hx),
    runFor_pairRead rfl hread (.inr ⟨rfl, rfl, rfl⟩) rfl (drivenRequest_prr rfl), deliverPair_first _ _ rfl,
    cur_of_firstHalf (.inr rfl) rfl]
  simp [deliverFirst, directEvents, Nat.add_assoc]

end

/-- Settles O41: the two reads, the first delivery kept in `HI`, the second completing. -/
theorem decpRunsToItsResponse : Obligations.DecpRunsToItsResponse := by
  intro s lo hi h l x read₁ read₂ rest hp hs hx hr₁ hr₂ n
  rw [runFor_add _ _ (runFor_decpFirstRead hp hs hx hr₁),
    runFor_pairRead rfl hr₂ (.inr ⟨rfl, rfl, rfl⟩) rfl (drivenRequest_prr rfl), deliverPair_second _ _ rfl,
    cur_of_secondHalf rfl]
  simp [n, complete, directEvents, Nat.add_assoc]

/-! ### The six failures (R121) -/

/-- Settles O42: each case is the run up to the failing transaction, then `runFor_failed`. -/
theorem failedTransactionEndsThePair : Obligations.FailedTransactionEndsThePair := by
  refine ⟨?_, ?_, ?_, ?_, ?_, ?_⟩
  · intro s lo hi e x read₁ rest hp hs hx hr₁ n
    have hrun := runFor_trans (runFor_decpAccepted hp hs hx) (runFor_failed rfl hr₁ rfl rfl (drivenRequest_prr rfl))
    rw [hrun, cur_of_firstHalf (.inr rfl) rfl]
    simp [n, failedDirectRead, Nat.add_assoc]
  · intro s lo hi h e x read₁ read₂ rest hp hs hx hr₁ hr₂ n
    have hrun := runFor_trans (runFor_decpFirstRead hp hs hx hr₁)
      (runFor_failed rfl hr₂ rfl rfl (drivenRequest_prr rfl))
    rw [hrun, cur_of_secondHalf rfl]
    simp [n, failedDirectRead, Nat.add_assoc]
  · intro s lo hi e x write₁ rest hp hs hx hw₁ n
    have hrun := runFor_trans (runFor_decvAccepted hp hs hx) (runFor_failed rfl hw₁ rfl rfl (drivenRequest_vrw rfl))
    rw [hrun, cur_of_firstHalf (.inl rfl) rfl]
    simp [n, failedNumberWrite, Nat.add_assoc]
  · intro s lo hi e x write₁ wait read₁ rest hp hs hx ⟨e', hw₁⟩ hd hr₁ n
    have ⟨hlen, _⟩ := hd
    have hrun := runFor_trans (runFor_decvToRead hp hs hx hw₁ hd)
      (runFor_failed rfl hr₁ rfl rfl (drivenRequest_vrr rfl))
    have hn : n = 1 + (write₁.length + wait.length) + read₁.length := by simp only [n, hlen]; omega
    rw [hn, hrun]
    simp [failedVirtualRead, Nat.add_assoc]
  · intro s lo hi h e x write₁ wait read₁ write₂ rest hp hs hx ⟨e', hw₁⟩ hd hr₁ hw₂ n
    have ⟨hlen, _⟩ := hd
    have hrun := runFor_trans (runFor_decvFirstHalf hp hs hx hw₁ hd hr₁)
      (runFor_failed rfl hw₂ rfl rfl (drivenRequest_vrw rfl))
    have hn : n = 1 + (write₁.length + wait.length + read₁.length) + write₂.length := by simp only [n, hlen]; omega
    rw [hn, hrun, cur_of_secondHalf rfl]
    simp [failedNumberWrite, Nat.add_assoc]
  · intro s lo hi h e x write₁ wait₁ read₁ write₂ wait₂ read₂ rest hp hs hx ⟨e₁, hw₁⟩ hd₁ hr₁ ⟨e₂, hw₂⟩ hd₂ hr₂ n
    have ⟨hlen₁, _⟩ := hd₁
    have ⟨hlen₂, _⟩ := hd₂
    have hrun := runFor_trans (runFor_decvFirstHalf hp hs hx hw₁ hd₁ hr₁)
      (runFor_trans (runFor_toRead rfl hw₂ hd₂ rfl rfl) (runFor_failed rfl hr₂ rfl rfl (drivenRequest_vrr rfl)))
    have hn : n = 1 + (write₁.length + wait₁.length + read₁.length) + (write₂.length + wait₂.length + read₂.length) := by
      simp only [n, hlen₁, hlen₂]
      omega
    rw [hn, hrun, cur_of_secondHalf rfl]
    simp [failedVirtualRead, Nat.add_assoc]

/-! ### The frames of `DECV` and `DECP` (R111, R112) -/

/-- The latches while `DECV` is in progress (R11 to R13). -/
theorem latches_of_serving_decv {lo hi : Byte} (hs : s.serving (.decv lo hi)) :
    s.opc = 0x04#8 ∧ s.a = lo ∧ s.b = hi := by
  obtain ⟨hw, -⟩ := hs
  obtain ⟨ho, hb, ha⟩ := packWord_inj.mp hw
  exact ⟨ho, ha, hb⟩

/-- The latches while `DECP` is in progress (R11 to R13). -/
theorem latches_of_serving_decp {lo hi : Byte} (hs : s.serving (.decp lo hi)) :
    s.opc = 0x05#8 ∧ s.a = lo ∧ s.b = hi := by
  obtain ⟨hw, -⟩ := hs
  obtain ⟨ho, hb, ha⟩ := packWord_inj.mp hw
  exact ⟨ho, ha, hb⟩

/-- `DECV` is in progress in neither the direct read's nor the channel select's phase (R111). -/
theorem phase_of_serving_decv {lo hi : Byte} (hs : s.serving (.decv lo hi)) : s.phase ≠ .prr ∧ s.phase ≠ .mxw := by
  obtain ⟨-, hrun⟩ := hs
  constructor <;> intro hp <;> rw [hp] at hrun <;> cases hrun

/-- `DECP` in progress is reading or has its response waiting (R112). -/
theorem phase_of_serving_decp {lo hi : Byte} (hs : s.serving (.decp lo hi)) : s.phase = .prr ∨ s.phase = .rsp := by
  obtain ⟨-, hrun⟩ := hs
  cases hp : s.phase with
  | prr => exact .inl rfl
  | rsp => exact .inr rfl
  | _ => rw [hp] at hrun; cases hrun

/-- The requests `DECV` drives (R81, R86, R113). -/
theorem drivenRequest_of_serving_decv {lo hi : Byte} {r : Request} (hs : s.serving (.decv lo hi))
    (hd : s.drivenRequest = some r) :
    (s.phase = .vrw ∧
      r = ⟨.writeByteData, s.params.devVr, s.params.wreg, (if s.dstep then lo else hi) &&& 0x7F#8⟩) ∨
    (s.phase = .vrr ∧ r = ⟨.readByteData, s.params.devVr, s.params.rreg, 0x00#8⟩) := by
  obtain ⟨ho, rfl, rfl⟩ := latches_of_serving_decv hs
  obtain ⟨hprr, hmxw⟩ := phase_of_serving_decv hs
  have htr : s.phase.isTransaction = true := by rw [← drivenRequest_isSome, hd]; rfl
  rcases isTransaction_iff.mp htr with hp | hp | hp | hp
  · rw [drivenRequest_vrw hp, cur_of_pair (.inl ho)] at hd
    exact .inl ⟨hp, (Option.some.inj hd).symm⟩
  · rw [drivenRequest_vrr hp] at hd
    exact .inr ⟨hp, (Option.some.inj hd).symm⟩
  · exact absurd hp hprr
  · exact absurd hp hmxw

/-- The one request `DECP` drives in each half (R101, R104, R113). -/
theorem drivenRequest_of_serving_decp {lo hi : Byte} {r : Request} (hs : s.serving (.decp lo hi))
    (hd : s.drivenRequest = some r) :
    s.phase = .prr ∧ r = ⟨.readByteData, s.params.devPr, (if s.dstep then lo else hi) &&& 0x7F#8, 0x00#8⟩ := by
  obtain ⟨ho, rfl, rfl⟩ := latches_of_serving_decp hs
  rcases phase_of_serving_decp hs with hp | hp
  · rw [drivenRequest_prr hp, cur_of_pair (.inr ho)] at hd
    exact ⟨hp, (Option.some.inj hd).symm⟩
  · have hsome := drivenRequest_isSome s
    rw [hd, hp] at hsome
    cases hsome

/-- `DSTEP` and `HI` of a command in progress change only where a first byte is read (R14, R17). -/
theorem row_keeps_firstByte (hs : s.serving i) (h : TableRow s u)
    (hn : (s.phase ≠ .vrr ∧ s.phase ≠ .prr) ∨ s.dstep = true) : u.dstep = s.dstep ∧ u.hi = s.hi := by
  rcases row_latches h with ⟨hp, -⟩ | ⟨⟨-, -, hd, hp⟩, -⟩ | ⟨-, hd, hh⟩
  · exact absurd hp (phase_ne_idle_of_serving hs)
  · rcases hn with ⟨hvrr, hprr⟩ | hd'
    · rcases hp with ⟨hp, -⟩ | ⟨hp, -⟩
      · exact absurd hp hvrr
      · exact absurd hp hprr
    · rw [hd] at hd'
      cases hd'
  · exact ⟨hd, hh⟩

/-- The first half of a pair decode keeps `RES` (R114). -/
theorem row_keeps_res_of_firstHalf (ho : s.opc = 0x04#8 ∨ s.opc = 0x05#8) (hd : s.dstep = false)
    (h : TableRow s u) : u.res = s.res := by
  cases h with
  | vrrSingle _ _ _ ho' | prrSingle _ _ _ ho' => simp [ho'] at ho
  | vrrSecond _ _ _ _ hd' | prrSecond _ _ _ _ hd' =>
    rw [hd] at hd'
    cases hd'
  | _ => rfl

/-- Settles O55: the acceptance writes the latches alone; in progress the cycle is a row of the table (`exec_row`), and
what a row leaves unchanged is known. -/
theorem decvFrame : Obligations.DecvFrame := by
  rintro s t lo hi (hp | hs) h
  · rw [exec_idle _ hp] at h
    cases h
    exact ⟨rfl, rfl, rfl, fun hne => absurd hp hne, fun hne => absurd hp hne, fun _ => rfl, fun _ => rfl,
      fun _ _ _ => rfl, fun _ => ⟨rfl, rfl⟩, .inl rfl⟩
  · have hrow := exec_row hs h
    obtain ⟨hparams, hscript, hcycle⟩ := row_keeps hrow
    obtain ⟨ho, -, -⟩ := latches_of_serving_decv hs
    obtain ⟨hprr, -⟩ := phase_of_serving_decv hs
    refine ⟨hparams, hscript, hcycle, fun _ => row_keeps_latches hs hrow, fun _ hvrr => ?_, fun hhi => ?_, fun hres => ?_,
      row_keeps_dcnt hrow, row_keeps_faultRecord hrow, ?_⟩
    · obtain ⟨hd, -⟩ := row_keeps_firstByte hs hrow (.inl ⟨hvrr, hprr⟩)
      exact hd
    · obtain ⟨-, hh⟩ := row_keeps_firstByte hs hrow (hhi.imp_left fun hvrr => ⟨hvrr, hprr⟩)
      exact hh
    · rcases hres with hvrr | hd
      · exact row_keeps_res hrow hvrr hprr
      · exact row_keeps_res_of_firstHalf (.inl ho) hd hrow
    · rcases row_record hrow with hrec | ⟨r, hrec, hd, -⟩ | ⟨x, hrec, ht, -⟩
      · exact .inl hrec
      · rcases drivenRequest_of_serving_decv hs hd with ⟨hp, rfl⟩ | ⟨hp, rfl⟩
        · exact .inr (.inl ⟨hp, hrec⟩)
        · exact .inr (.inr (.inl ⟨hp, hrec⟩))
      · exact .inr (.inr (.inr ⟨ht, x, hrec⟩))

/-- Settles O56: as `decvFrame`, in phases that have no wait and drive only the read. -/
theorem decpFrame : Obligations.DecpFrame := by
  rintro s t lo hi (hp | hs) h
  · rw [exec_idle _ hp] at h
    cases h
    exact ⟨rfl, rfl, rfl, rfl, fun hne => absurd hp hne, fun hne => absurd hp hne, fun _ => rfl, fun _ => rfl,
      fun _ => ⟨rfl, rfl⟩, .inl rfl⟩
  · have hrow := exec_row hs h
    obtain ⟨hparams, hscript, hcycle⟩ := row_keeps hrow
    obtain ⟨ho, -, -⟩ := latches_of_serving_decp hs
    obtain ⟨hvrw, hdly1, hdly2, hvrr⟩ : s.phase ≠ .vrw ∧ s.phase ≠ .dly1 ∧ s.phase ≠ .dly2 ∧ s.phase ≠ .vrr := by
      rcases phase_of_serving_decp hs with hp | hp <;> simp [hp]
    refine ⟨row_keeps_dcnt hrow hvrw hdly1 hdly2, hparams, hscript, hcycle, fun _ => row_keeps_latches hs hrow,
      fun _ hprr => ?_, fun hhi => ?_, fun hres => ?_, row_keeps_faultRecord hrow, ?_⟩
    · obtain ⟨hd, -⟩ := row_keeps_firstByte hs hrow (.inl ⟨hvrr, hprr⟩)
      exact hd
    · obtain ⟨-, hh⟩ := row_keeps_firstByte hs hrow (hhi.imp_left fun hprr => ⟨hvrr, hprr⟩)
      exact hh
    · rcases hres with hprr | hd
      · exact row_keeps_res hrow hvrr hprr
      · exact row_keeps_res_of_firstHalf (.inr ho) hd hrow
    · rcases row_record hrow with hrec | ⟨r, hrec, hd, -⟩ | ⟨x, hrec, ht, -⟩
      · exact .inl hrec
      · obtain ⟨hp, rfl⟩ := drivenRequest_of_serving_decp hs hd
        exact .inr (.inl ⟨hp, hrec⟩)
      · exact .inr (.inr ⟨ht, x, hrec⟩)

end Sys2Proof.Machine
end


-- ==== Sys2Proof/Proofs/ChannelSelect.lean ====
section
/-! PROOF. The channel select family (43_channel_select.md): the run of `SELCH` is its acceptance and the one write of
phase `MXW`, and its frame is what a row of the transition table leaves unchanged in `MXW` and `RSP`; the host's view of
the selector keeps a mask through every event that leaves the selector. -/

namespace Sys2Proof.Machine

variable {s u : State}

/-! ### The answer of the mask write (R132) -/

/-- Settles O10: the three rows of a pending transaction in `MXW`. -/
theorem maskWriteIsAnswered : Obligations.MaskWriteIsAnswered := by
  intro s hp ht hr
  have htr : s.phase.isTransaction = true := by rw [hp]; rfl
  dsimp only
  split_ifs with he hv
  · rw [← hp]
    exact row_step hr (.failed htr ht he)
  · exact row_step hr (.mxwOk hp ht ⟨hv, by simpa [hv] using he⟩)
  · exact row_step hr (.notAnswered htr ht (by simpa using hv))

theorem phaseCycle_mxw {v d : Byte → State → Result} (hp : s.phase = .mxw) : phaseCycle v d s = writeMaskCycle s := by
  simp [phaseCycle, hp]

/-- Settles O12: `exec` runs the rule of `MXW`, whose success completes silently. -/
theorem selchCompletes : Obligations.SelchCompletes := by
  intro s m hp ht hv he
  rw [exec_busy _ (by simp [hp]), phaseCycle_mxw hp, writeMaskCycle, writeCycle, transactionCycle_ok ht hv he]
  rfl

/-! ### The run of `SELCH` (R130, R184) -/

/-- Phase `MXW` from its first cycle to the successful answer (R131, R132). -/
theorem runFor_maskWrite {e : Byte} {ins rest : List Inputs} (hs : s.script = ins ++ rest)
    (ht : transacts false e ins) (hp : s.phase = .mxw) (hn : s.tpend = false) :
    runFor ins.length s = .next { s with
      phase := .rsp, tpend := false, script := rest, cycle := s.cycle + ins.length,
      record := s.record ++ selectEvents s.params s.a } := by
  obtain ⟨x, m, hlen, hrun, hr, hv, he, -⟩ := runFor_toAnswer hs ht (by rw [hp]; rfl) hn (drivenRequest_mxw hp)
  have hdone := runFor_trans hrun (runFor_one (row_step hr (.mxwOk hp rfl ⟨hv, he⟩)))
  simpa [hlen, State.tick, selectEvents, Nat.add_assoc] using hdone

/-- Settles O39: the acceptance, then the write of `A`. -/
theorem selchRunsToItsResponse : Obligations.SelchRunsToItsResponse := by
  intro s m e x write rest hp hs hx hwrite n
  let s₁ : State := (accept (encode (.selch m)) .mxw s).tick
  have hs₁ : s₁.script = write ++ rest := by simp [s₁, hs]
  have ha : s₁.a = m := aField_packWord ..
  have haccept : runFor 1 s = .next s₁ := runFor_one (step_command_offered hp hs hx)
  rw [runFor_trans haccept (runFor_maskWrite hs₁ hwrite rfl rfl), ha]
  simp [s₁, n, State.tick, accept, latch, encode, opSELCH, Nat.add_assoc]

/-! ### The frame of `SELCH` (R130) -/

/-- The operand latched while `SELCH` is in progress is its mask (R12). -/
theorem a_of_serving_selch {m : Byte} (hs : s.serving (.selch m)) : s.a = m := by
  obtain ⟨hw, -⟩ := hs
  obtain ⟨-, -, ha⟩ := packWord_inj.mp hw
  exact ha

/-- `SELCH` in progress is writing the mask or has its response waiting (R130). -/
theorem phase_of_serving_selch {m : Byte} (hs : s.serving (.selch m)) : s.phase = .mxw ∨ s.phase = .rsp := by
  obtain ⟨-, hrun⟩ := hs
  cases hp : s.phase with
  | mxw => exact .inl rfl
  | rsp => exact .inr rfl
  | _ => rw [hp] at hrun; cases hrun

/-- The one request `SELCH` drives, the mask whole (R131, R133). -/
theorem drivenRequest_of_serving_selch {m : Byte} {r : Request} (hs : s.serving (.selch m))
    (hd : s.drivenRequest = some r) : s.phase = .mxw ∧ r = ⟨.writeByte, s.params.devMux, 0x00#8, m⟩ := by
  rcases phase_of_serving_selch hs with hp | hp
  · rw [drivenRequest_mxw hp, a_of_serving_selch hs] at hd
    exact ⟨hp, (Option.some.inj hd).symm⟩
  · have hsome := drivenRequest_isSome s
    rw [hd, hp] at hsome
    cases hsome

/-- Settles O54: the acceptance writes the latches alone; in progress the cycle is a row of the table (`exec_row`), in a
phase that reads nothing, has no wait and drives only the write of the mask. -/
theorem selchFrame : Obligations.SelchFrame := by
  rintro s t m (hp | hs) h
  · rw [exec_idle _ hp] at h
    cases h
    exact ⟨rfl, rfl, rfl, rfl, rfl, rfl, fun hne => absurd hp hne, fun _ => ⟨rfl, rfl⟩, .inl rfl⟩
  · have hrow := exec_row hs h
    obtain ⟨hparams, hscript, hcycle⟩ := row_keeps hrow
    obtain ⟨hopc, ha, hb⟩ := row_keeps_latches hs hrow
    obtain ⟨hvrw, hdly1, hdly2, hvrr, hprr⟩ :
        s.phase ≠ .vrw ∧ s.phase ≠ .dly1 ∧ s.phase ≠ .dly2 ∧ s.phase ≠ .vrr ∧ s.phase ≠ .prr := by
      rcases phase_of_serving_selch hs with hp | hp <;> simp [hp]
    obtain ⟨hdstep, hhi⟩ := row_keeps_firstByte hs hrow (.inl ⟨hvrr, hprr⟩)
    refine ⟨hhi, row_keeps_res hrow hvrr hprr, row_keeps_dcnt hrow hvrw hdly1 hdly2, hparams, hscript, hcycle,
      fun _ => ⟨hopc, ha, hb, hdstep⟩, row_keeps_faultRecord hrow, ?_⟩
    rcases row_record hrow with hrec | ⟨r, hrec, hd, -⟩ | ⟨x, hrec, ht, -⟩
    · exact .inl hrec
    · obtain ⟨hp, rfl⟩ := drivenRequest_of_serving_selch hs hd
      exact .inr (.inl ⟨hp, hrec⟩)
    · exact .inr (.inr ⟨ht, x, hrec⟩)

/-! ### The selected channel (R134, R178) -/

/-- A successful `SELCH m` at the end of a record puts `m` in force, whatever came before (R134). -/
theorem selectorAfter_selectEvents (p : Params) (h : List Event) (m : Byte) :
    selectorAfter p (h ++ selectEvents p m) = ⟨some m, none⟩ := by
  simp [selectorAfter, List.foldl_append, selectEvents, Selector.observe, Request.writeByte]

/-- Outside `MXW`, and where `DEV_MUX = DEV_VR` outside `VRW`, the request driven is no write to the multiplexer's address
(R178). -/
theorem drivenRequest_leavesSelector {r : Request} (hd : s.drivenRequest = some r) (hm : s.phase ≠ .mxw)
    (hw : s.phase = .vrw → s.params.devVr ≠ s.params.devMux) : (Event.request r).leavesSelector s.params = true := by
  have htr : s.phase.isTransaction = true := by rw [← drivenRequest_isSome, hd]; rfl
  rcases isTransaction_iff.mp htr with hp | hp | hp | hp
  · cases (drivenRequest_vrw hp).symm.trans hd
    simp [Event.leavesSelector, Request.writesMux, Request.writeByteData, hw hp]
  · cases (drivenRequest_vrr hp).symm.trans hd
    simp [Event.leavesSelector, Request.writesMux, Request.readByteData]
  · cases (drivenRequest_prr hp).symm.trans hd
    simp [Event.leavesSelector, Request.writesMux, Request.readByteData]
  · exact absurd hp hm

/-- An answer taken in a cycle without `t_rsp_err` ends nothing that the host knows (U18). -/
theorem row_answer_leavesSelector {x : Answer} (h : TableRow s u) (hrec : u.record = s.record ++ [.answer x])
    (he : s.inputs.tRspErr ≠ true) : (Event.answer x).leavesSelector s.params = true := by
  obtain ⟨herr, -⟩ := row_answer h hrec
  simpa [Event.leavesSelector] using mt herr.mp he

/-- Settles O50: the cycle records nothing, or one event (`row_record`), which leaves the selector. -/
theorem selectionLastsUntilTheNextSelch : Obligations.SelectionLastsUntilTheNextSelch := by
  refine ⟨fun p h m => Selector.selects_iff.mpr (selectorAfter_selectEvents p h m), ?_⟩
  intro s t v m h hr hfail hm hw hv
  obtain ⟨u, hrow, rfl⟩ := step_row hr h
  rcases row_record hrow with hrec | ⟨r, hrec, hd, -⟩ | ⟨x, hrec, ht, hvalid, -⟩
  · rw [Selector.track_events (es := []) hr (by simpa using hrec)]
    exact hv
  · rw [Selector.track_events (t := u.tick) hr hrec]
    exact Selector.observe_leaves (drivenRequest_leavesSelector hd hm hw) hv
  · rw [Selector.track_events (t := u.tick) hr hrec]
    exact Selector.observe_leaves (row_answer_leavesSelector hrow hrec fun he => hfail ⟨ht, hvalid, he⟩) hv

end Sys2Proof.Machine
end

