-- ==== Sys2Proof/Proofs/Exceptions.lean ====
section
/-! PROOF. The exceptions family (60_exceptions.md): of the rows of the transition table two enter `FLT`; there nothing
changes without reset, in one cycle and in any number; and a wait's tick is one row. -/

namespace Sys2Proof

/-- A word no row of the opcode map selects has no command (R62, R65). -/
theorem decode_of_unselected {w : CmdWord} (h : ∀ r ∈ opcodeMap, w &&& r.mask ≠ r.pattern) : decode w = none := by
  simpa [decode, OpRow.selects] using h

end Sys2Proof

namespace Sys2Proof.Machine

variable {s u : State}

/-! ### The fault state (R144) -/

/-- The ports in `FLT`: nothing is offered or answered, and the fault shows (R144). -/
theorem outputs_of_flt (hp : s.phase = .flt) :
    s.outputs.cmdReady = false ∧ s.outputs.tReqValid = false ∧ s.outputs.respValid = false ∧
    s.outputs.fault = true ∧ s.outputs.busy = true := by
  simp [State.outputs, State.cmdReady, State.tReqValid, State.respValid, State.fault, State.busy, Phase.isTransaction, hp]

/-- Settles O18: `outputs_of_flt` and `step_flt`. -/
theorem faultStateHolds : Obligations.FaultStateHolds := by
  intro s hp
  obtain ⟨hcmd, hreq, hresp, hfault, hbusy⟩ := outputs_of_flt hp
  exact ⟨hcmd, hreq, hresp, hfault, hbusy, step_flt hp⟩

/-- "With `rst` = 0 nothing changes in `FLT`, for ever" (R144). -/
theorem runFor_flt {ins rest : List Inputs} (hs : s.script = ins ++ rest) (hu : undisturbed ins) (hp : s.phase = .flt) :
    runFor ins.length s = .next { s with script := rest, cycle := s.cycle + ins.length } :=
  runFor_holds (fun x => x.rst = false) ins rest s hs hu fun _ hup _ hr => step_flt (hup.trans hp) hr

/-- Settles O5: the word has no command, so it is accepted as illegal (R65), and `FLT` holds (`runFor_flt`). -/
theorem illegalCommandFaults : Obligations.IllegalCommandFaults := by
  intro s hp hr hv hw
  refine ⟨_, step_idle_illegal hp hr hv (decode_of_unselected hw), rfl, rfl, hp, rfl, ?_⟩
  rintro n ins rest hs rfl hu
  exact ⟨_, runFor_flt hs hu rfl, rfl, rfl⟩

/-! ### The entry into the fault state (R143) -/

/-- The two rows that enter `FLT`, whole: an illegal word's acceptance (R65) and a failed answer (R141). -/
theorem row_entersFault (h : TableRow s u) (hs : s.phase ≠ .flt) (hu : u.phase = .flt) :
    (s.phase = .idle ∧ u = { s.latched with phase := .flt, fcause := .illegalCommand, fphase := .idle }) ∨
    (s.phase.isTransaction = true ∧ u = { s with
      phase := .flt, fcause := .transportError, fphase := s.phase, tpend := false,
      record := s.record ++ [.answer .err] }) := by
  cases h with
  | idleIllegal hp => exact .inl ⟨hp, rfl⟩
  | failed hp => exact .inr ⟨hp, rfl⟩
  | idleNone | requested | notRequested | notAnswered | dly1Tick | dly2Tick | rspHeld | fltHeld => exact absurd hu hs
  | _ => cases hu

/-- Settles O19: the step is one of the two rows of `row_entersFault`, and the outputs show its record. -/
theorem faultEntryRecordsCauseAndPhase : Obligations.FaultEntryRecordsCauseAndPhase := by
  intro s t hr hs hstep ht
  obtain ⟨u, hrow, rfl⟩ := step_row hr hstep
  obtain ⟨-, -, hresp, hfault, hbusy⟩ := outputs_of_flt ht
  rcases row_entersFault hrow hs ht with ⟨hp, rfl⟩ | ⟨hp, rfl⟩
  · exact ⟨.inl ⟨hp, rfl⟩, hfault, hbusy, rfl, by rw [hp]; rfl, hresp⟩
  · exact ⟨.inr ⟨hp, rfl⟩, hfault, hbusy, rfl, rfl, hresp⟩

/-! ### The delay timer (R152) -/

/-- Settles O15: `step_tick`; a nonzero count does not wrap. -/
theorem timerTicks : Obligations.TimerTicks := by
  intro s hp hd hr
  have hpred : (s.dcnt - 1#32).toNat + 1 = s.dcnt.toNat := by bv_omega
  exact ⟨_, step_tick hr hp hd, rfl, hpred⟩

end Sys2Proof.Machine
end

