-- ==== Sys2Proof/Proofs/ResetAndHazards.lean ====
section
/-! PROOF. The reset and hazards family (70_reset_and_hazards.md): a wait for the transport or the host changes nothing,
for any number of cycles; and the host's view of the selector is at every cycle justified by the events recorded since it
began to look. -/

namespace Sys2Proof.Machine

variable {p : Params} {v w : Selector} {es : List Event} {s t : State}

/-! ### No time-out (R182) -/

/-- While the host does not take the response, nothing moves but the environment (R27, R182). -/
theorem step_notTaken (hr : s.inputs.rst = false) (hn : s.inputs.respReady = false) (hp : s.phase = .rsp) :
    step s = .next s.tick :=
  row_step hr (.rspHeld hp hn)

/-- A block that holds in every cycle without reset in which it `waits` holds through a stretch of such cycles. -/
theorem runFor_waiting (waits : Inputs → Prop) {ins rest : List Inputs} (hs : s.script = ins ++ rest)
    (hu : undisturbed ins) (hw : ∀ i ∈ ins, waits i)
    (hold : ∀ u : State, u.phase = s.phase → u.tpend = s.tpend → u.inputs.rst = false → waits u.inputs →
      step u = .next u.tick) :
    runFor ins.length s = .next { s with script := rest, cycle := s.cycle + ins.length } :=
  runFor_holds (fun x => x.rst = false ∧ waits x) ins rest s hs (fun i hi => ⟨hu i hi, hw i hi⟩)
    fun u hup hut ⟨hr, hwait⟩ => hold u hup hut hr hwait

/-- Settles O43: the three waits are those of `step_notReady`, `step_notAnswered` and `step_notTaken`. -/
theorem hangsAreKept : Obligations.HangsAreKept := by
  rintro s ins rest hs hu (⟨hp, ht, hw⟩ | ⟨hp, ht, hw⟩ | ⟨hp, hw⟩)
  · exact runFor_waiting (·.tReqReady = false) hs hu hw fun u hup hut hr hn =>
      step_notReady hr hn (hup ▸ hp) (hut.trans ht)
  · exact runFor_waiting (·.tRspValid = false) hs hu hw fun u hup hut hr hn =>
      step_notAnswered hr hn (hup ▸ hp) (hut.trans ht)
  · exact runFor_waiting (·.respReady = false) hs hu hw fun u hup _ hr hn => step_notTaken hr hn (hup.trans hp)

/-! ### What the host's view rests on (R175, R178) -/

/-- The invariant of `follow`: the events `es` recorded so far bear out what the view says. A mask in force has its
completed `SELCH` among them, and only events that leave the selector after it; a mask in flight is the last request. -/
structure Selector.JustifiedBy (p : Params) (v : Selector) (es : List Event) : Prop where
  known : ∀ m, v.known = some m → ∃ before since, es = before ++ selectEvents p m ++ since ∧
    ∀ e ∈ since, e.leavesSelector p = true
  inFlight : ∀ m, v.inFlight = some m → ∃ before, es = before ++ [.request (.writeByte p.devMux m)]

/-- A view that says nothing is borne out by every record. -/
theorem Selector.unknown_justifiedBy (p : Params) (es : List Event) : Selector.unknown.JustifiedBy p es where
  known _ h := nomatch h
  inFlight _ h := nomatch h

/-- One more event: `observe_known` and `observe_inFlight` say where the new view has its mask from. -/
theorem Selector.JustifiedBy.observe (h : v.JustifiedBy p es) (e : Event) :
    (v.observe p e).JustifiedBy p (es ++ [e]) where
  known m hm := by
    rcases Selector.observe_known hm with ⟨he, hv⟩ | ⟨rfl, hv⟩
    · obtain ⟨before, since, rfl, hsince⟩ := h.known m hv
      refine ⟨before, since ++ [e], by simp, fun x hx => ?_⟩
      rcases List.mem_append.mp hx with hx | hx
      · exact hsince x hx
      · rwa [List.mem_singleton.mp hx]
    · obtain ⟨before, rfl⟩ := h.inFlight m hv
      exact ⟨before, [], by simp [selectEvents], fun _ hx => nomatch hx⟩
  inFlight m hm := ⟨es, by rw [Selector.observe_inFlight hm]⟩

/-- More events: one after the other. -/
theorem Selector.JustifiedBy.foldl (h : v.JustifiedBy p es) (more : List Event) :
    (more.foldl (Selector.observe p) v).JustifiedBy p (es ++ more) := by
  induction more generalizing v es with
  | nil => simpa using h
  | cons e more ih => simpa using ih (h.observe e)

/-- No step takes an event off the record. -/
theorem step_record_append (h : step s = .next t) : ∃ more, t.record = s.record ++ more := by
  rcases recordGrowsByOneEvent s t h with hrec | ⟨r, hrec, -⟩ | ⟨x, hrec, -⟩
  · exact ⟨[], by rw [hrec, List.append_nil]⟩
  · exact ⟨_, hrec⟩
  · exact ⟨_, hrec⟩

/-- A cycle observes the events it records; one of reset, or of the host's own use, leaves nothing to justify. -/
theorem Selector.JustifiedBy.track {more : List Event} (h : v.JustifiedBy s.params es)
    (hrec : t.record = s.record ++ more) (u : Bool) : (v.track s t u).JustifiedBy s.params (es ++ more) := by
  cases hr : s.inputs.rst with
  | true =>
    rw [Selector.track_reset hr]
    exact Selector.unknown_justifiedBy _ _
  | false =>
    cases u with
    | true =>
      rw [Selector.track_uses]
      exact Selector.unknown_justifiedBy _ _
    | false =>
      rw [Selector.track_events hr hrec]
      exact h.foldl more

/-- A run of the machine beside the view begins with one cycle, which goes on. -/
theorem follow_cons {u : Bool} {us : List Bool} (h : follow (u :: us) s v = some (t, w)) :
    ∃ s', step s = .next s' ∧ follow us s' (v.track s s' u) = some (t, w) := by
  cases hs : step s with
  | next s' => exact ⟨s', rfl, by simpa [follow, hs] using h⟩
  | fault f => exact nomatch f
  | refused r => simp [follow, hs] at h

/-- Through any number of cycles the view stays justified by the events recorded since it began to look. -/
theorem follow_justifiedBy {uses : List Bool} (h : follow uses s v = some (t, w)) (hv : v.JustifiedBy s.params es) :
    ∃ more, t.record = s.record ++ more ∧ w.JustifiedBy s.params (es ++ more) := by
  induction uses generalizing s v es with
  | nil =>
    cases h
    exact ⟨[], by simp, by simpa using hv⟩
  | cons u us ih =>
    obtain ⟨s', hstep, hrest⟩ := follow_cons h
    obtain ⟨first, hfirst⟩ := step_record_append hstep
    have hparams := parametersNeverChange s s' hstep
    obtain ⟨more, hmore, hw⟩ := ih hrest (by rw [hparams]; exact hv.track hfirst u)
    refine ⟨first ++ more, by rw [hmore, hfirst, List.append_assoc], ?_⟩
    rwa [hparams, List.append_assoc] at hw

/-! ### A cycle after which nothing is known (R173, R180, U18) -/

@[simp] theorem Selector.unknown_selects (m : Byte) : Selector.unknown.selects m = false := rfl

/-- A failed answer leaves nothing known (U18): it is the one event of its cycle. -/
theorem Selector.track_failed (h : step s = .next t) (hr : s.inputs.rst = false) (hp : s.phase.isTransaction = true)
    (ht : s.tpend = true) (ha : s.answerError) : v.track s t false = .unknown := by
  cases (row_step hr (.failed hp ht ha)).symm.trans h
  exact Selector.track_events (es := [.answer .err]) hr rfl

/-- Settles O58: the invariant `Selector.JustifiedBy` holds of the unknown view and is kept (`follow_justifiedBy`); and a
cycle of reset, of the host's own use or of a failure leaves the view unknown. -/
theorem selectionIsThePremiseOfDirectReads : Obligations.SelectionIsThePremiseOfDirectReads := by
  constructor
  · intro uses s t w m h hw
    obtain ⟨more, hrec, hjust⟩ := follow_justifiedBy h (Selector.unknown_justifiedBy s.params [])
    obtain ⟨before, since, rfl, hsince⟩ := hjust.known m (by rw [Selector.selects_iff.mp hw])
    exact ⟨before, since, by simp [hrec], hsince⟩
  · intro s t v m uses h hv
    cases hr : s.inputs.rst with
    | true => simp [Selector.track_reset hr] at hv
    | false =>
      cases uses with
      | true => simp [Selector.track_uses] at hv
      | false =>
        refine ⟨rfl, rfl, fun ⟨hp, ht, ha⟩ => ?_⟩
        simp [Selector.track_failed h hr hp ht ha] at hv

end Sys2Proof.Machine
end
